-- ==== Sys2Proof/Word.lean ====
section
/-!
DEFINITION. The plain value types of the FDS: bytes, frame words, the shape of stored sounds, and references to them
(00_scope.md R7, R10; 20_memory.md R31, R32). Nothing here computes: byte order and field extraction stand in
Sys2Proof/Decode.lean.
-/

namespace Sys2Proof

/-- 00_scope.md R7, R10: an 8-bit unsigned value. -/
abbrev Byte := BitVec 8

/-- 00_scope.md R10: a 32-bit unsigned value; a frame word (30_encoding.md R46). -/
abbrev Word32 := BitVec 32

/-- 00_scope.md R10: a finite sequence of bytes, one storage segment of a sound. -/
abbrev SoundBuffer := List Byte

/-- 00_scope.md R10, 20_memory.md R31: an ordered list of zero or more SoundBuffers. -/
abbrev NamedSound := List SoundBuffer

/-- A NamedSound reference (10_state.md R16). The spec gives it no width and no encoding; the model numbers references. -/
abbrev Ref := Nat

end Sys2Proof
end

