-- ==== Sys2Proof/Config.lean ====
section
/-!
DEFINITION. What an implementation fixes (the parameters of 00_scope.md R6), one line of the host's inputs
(30_encoding.md R61), and the free values, which nothing constrains (log entries 2 and 3).
-/

namespace Sys2Proof

/-- The parameters of 00_scope.md R6. `none` in a width or a limit is the spec's "unbounded"; `none` in `clkHz` is a
clock frequency left open. -/
structure Params where
  /-- `P_TERM_MASK`: 32-bit mask of the terminal-marker comparator. -/
  termMask : Word32
  /-- `P_TERM_MATCH`: 32-bit match value of the terminal-marker comparator. -/
  termMatch : Word32
  /-- `P_BI_W`: width in bits of the buffer-index register. -/
  biW : Option Nat
  /-- `P_OFF_W`: width in bits of the byte-offset register. -/
  offW : Option Nat
  /-- `P_NBUF_MAX`: maximum number of SoundBuffers in one NamedSound. -/
  nbufMax : Option Nat
  /-- `P_BUF_LEN_MAX`: maximum length in bytes of one SoundBuffer. -/
  bufLenMax : Option Nat
  /-- `P_CLK`: the sequencer clock frequency. DESIGN CHOICE (log entry 22): a whole number of Hz; the spec gives the
  parameter no unit and no granularity. -/
  clkHz : Option Nat
  deriving DecidableEq, Repr, Inhabited

/-- The values of 00_scope.md R6: the default comparator, and every OPEN parameter left open. -/
def Params.default : Params where
  termMask := 0xFFFFFFE0#32
  termMatch := 0#32
  biW := none
  offW := none
  nbufMax := none
  bufLenMax := none
  clkHz := none

/-- The constraints on the parameters: R6 (`P_TERM_MATCH & ~P_TERM_MASK = 0`) and the table "Open parameters" of
92_eei_decisions.md (`P_BI_W` at least 1, `P_OFF_W` at least 9, `P_BUF_LEN_MAX` a multiple of 4). -/
def Params.wf (p : Params) : Bool :=
  p.termMatch &&& ~~~p.termMask == 0#32
    && p.biW.all (1 ≤ ·) && p.offW.all (9 ≤ ·) && p.bufLenMax.all (· % 4 == 0)

/-- 00_scope.md R6: `P_TICK_MS`, the period of the time base in ms, fixed. -/
def tickMs : Nat := 8

/-- What the host and the time base drive in one clock cycle (30_encoding.md R61): `rst`, the input word
`HIN[2:0] = cat(cmd[1:0], tick)`, and the operand `sndIn`. A list of lines is a host script (R65). -/
structure InputLine where
  rst : BitVec 1
  hin : BitVec 3
  sndIn : Ref
  deriving DecidableEq, Repr, Inhabited

/-- FREE VALUE (log entry 2): what is driven in cycle `n` when the script holds no line for it. -/
opaque Config.freeLine : Nat → InputLine

/-- FREE VALUE (log entry 3): what a reference denotes when storage lists no NamedSound for it. -/
opaque Config.unlistedSound : Ref → NamedSound

end Sys2Proof
end

