-- ==== Sys2Proof/Syntax.lean ====
section
/-!
DEFINITION. The decoded record of a frame (40_frame_decoder.md R66), the instructions of the FDS, one constructor per row
of spec/opcode_table.json, and the places in which an instruction's bits stand.
-/

namespace Sys2Proof

/-- A pitch increment, an integer in -15..15 (00_scope.md R10): the type excludes `Pitch(-16)`
(93_implementation_defined.md I4). -/
abbrev PitchDelta := { d : Int // -15 ≤ d ∧ d ≤ 15 }

/-- 00_scope.md R10: the sum type the PI field decodes to. -/
inductive PitchOrNoise where
  | pitch (d : PitchDelta)
  | noise
  deriving DecidableEq, Repr

/-- 40_frame_decoder.md R66: the record a frame word decodes to. Every field but `pi` is a raw unsigned index
(30_encoding.md R49). -/
structure SoundFrame where
  bw1 : BitVec 2
  bw2 : BitVec 2
  bw3 : BitVec 2
  bw4 : BitVec 2
  fm3 : BitVec 3
  fm2 : BitVec 5
  fm1 : BitVec 5
  ampl : BitVec 4
  fd : BitVec 2
  pi : PitchOrNoise
  deriving DecidableEq, Repr

/-- The instructions: one constructor per row of spec/opcode_table.json, in the table's order. -/
inductive Instr where
  /-- FRAME_TERMINAL: a frame word the terminal comparator accepts (30_encoding.md R55, R56). -/
  | frameTerminal (f : SoundFrame)
  /-- FRAME_NOISE: a non-terminal frame word whose PI is the noise sentinel (R56). -/
  | frameNoise (f : SoundFrame)
  /-- FRAME_VOICED: every other frame word (R56). -/
  | frameVoiced (f : SoundFrame)
  /-- DECODE: the combinational decoder applied to a word (40_frame_decoder.md R66). -/
  | decode (w : Word32)
  /-- NOP: `cmd = 00` (41_frame_sequencer.md R91). -/
  | nop
  /-- START: `cmd = 01` with the operand `sndIn` (R93, R94). -/
  | start (sndIn : Ref)
  /-- CANCEL: `cmd = 10` (R95, R96). -/
  | cancel
  /-- RSVD: `cmd = 11` (R92). -/
  | rsvd
  /-- TICK: the tick bit of `HIN` is 1; the command bits are decoded by their own row (R103, R104). -/
  | tick
  /-- RESET: `rst = 1` (70_reset_and_hazards.md R146). -/
  | reset
  /-- LOAD_FETCH: Loading, a whole non-terminal frame left (R98, R99). -/
  | loadFetch
  /-- LOAD_TERMINAL: Loading, a whole terminal frame left (R98, R100). -/
  | loadTerminal
  /-- LOAD_CROSS: Loading, buffer exhausted, another follows (R98, R101). -/
  | loadCross
  /-- LOAD_EXHAUST: Loading, the last buffer exhausted (R98, R102). -/
  | loadExhaust
  /-- WAIT: Playing and `tick = 1` (R104, R105). -/
  | wait
  deriving DecidableEq, Repr

/-- The conditions that select an internal step beside `st` (the table's "format" of the LOAD rows and of WAIT;
41_frame_sequencer.md R87, R98). -/
structure InternalCond where
  /-- `cmd = CANCEL` in this cycle. -/
  cancel : Bool
  /-- `tick = 1` in this cycle. -/
  tick : Bool
  /-- A whole frame is left in the current buffer. -/
  wholeFrame : Bool
  /-- The word at the cursor is terminal (meaningful when `wholeFrame`). -/
  terminal : Bool
  /-- Another buffer follows (meaningful when not `wholeFrame`). -/
  another : Bool
  deriving DecidableEq, Repr

/-- Where an instruction's bits stand. The rows of the opcode table are numbered in separate spaces: a frame word in
storage or at the decoder's input, the two slots of `HIN` (30_encoding.md R61, R62), the `rst` input, and the internal
selection by `st`. -/
inductive Code where
  /-- A word the LOAD step reads from storage. -/
  | frame (w : Word32)
  /-- A word at the Frame Decoder's input. -/
  | decoder (w : Word32)
  /-- `HIN[2:1]`, with the operand `sndIn`. -/
  | cmd (c : BitVec 2) (sndIn : Ref)
  /-- `HIN[0]`. -/
  | tick (t : BitVec 1)
  /-- The `rst` input. -/
  | rst (r : BitVec 1)
  /-- The code of `st` and the conditions beside it. -/
  | internal (st : BitVec 3) (c : InternalCond)
  deriving DecidableEq, Repr

/-- Why the decoder gives no instruction, by name. No frame word and no `HIN` word is rejected (30_encoding.md R57,
R63). -/
inductive Reject where
  /-- Fewer than four bytes are not a frame (30_encoding.md R46). -/
  | shortFrame
  /-- `HIN[0] = 0`: no tick in this cycle. -/
  | noTick
  /-- `rst = 0`: no reset in this cycle. -/
  | noReset
  /-- `st` and the conditions select no internal step (41_frame_sequencer.md R87). -/
  | noInternalStep
  /-- Codes 5, 6 and 7 of `st` are never held (10_state.md R15). -/
  | stCodeNeverHeld
  deriving DecidableEq, Repr

end Sys2Proof
end

