-- ==== Sys2Proof/Decode.lean ====
section
/-!
DEFINITION. The Frame Decoder and its inverse (40_frame_decoder.md), the frame classes (30_encoding.md R55, R56), the
host command port (R61, R62), the selection of an internal step, and the decoder and encoder of instructions.
-/

namespace Sys2Proof

/-! ### The frame word: byte order and fields -/

/-- 20_memory.md R34: four bytes form a frame word, the first byte most significant. -/
def wordOfBytes (b0 b1 b2 b3 : Byte) : Word32 := b0 ++ b1 ++ b2 ++ b3

/-- The bytes of a frame word as storage holds them, first byte first (20_memory.md R34). -/
def bytesOfWord (w : Word32) : SoundBuffer :=
  [w.extractLsb' 24 8, w.extractLsb' 16 8, w.extractLsb' 8 8, w.extractLsb' 0 8]

/-- 30_encoding.md R50: every PI code but the noise sentinel has a two's-complement value in -15..15. -/
theorem pitch_in_range : ∀ p : BitVec 5, p ≠ 0b10000#5 → -15 ≤ p.toInt ∧ p.toInt ≤ 15 := by decide

/-- 40_frame_decoder.md R71: `decodePI`. -/
def decodePI (p : BitVec 5) : PitchOrNoise :=
  if h : p = 0b10000#5 then .noise else .pitch ⟨p.toInt, pitch_in_range p h⟩

/-- 40_frame_decoder.md R66 (extractors R67 to R71; layout 30_encoding.md R47). `extractLsb' lo n` is the field of `n`
bits from bit `lo` up. -/
def decodeWord (w : Word32) : SoundFrame where
  bw1 := w.extractLsb' 30 2
  bw2 := w.extractLsb' 28 2
  bw3 := w.extractLsb' 26 2
  bw4 := w.extractLsb' 24 2
  fm3 := w.extractLsb' 21 3
  fm2 := w.extractLsb' 16 5
  fm1 := w.extractLsb' 11 5
  ampl := w.extractLsb' 7 4
  fd := w.extractLsb' 5 2
  pi := decodePI (w.extractLsb' 0 5)

/-- 40_frame_decoder.md R72: `encodePI`; 5-bit two's complement of the increment, or the noise sentinel. -/
def encodePI : PitchOrNoise → BitVec 5
  | .noise => 0b10000#5
  | .pitch d => BitVec.ofInt 5 d.val

/-- 40_frame_decoder.md R72: ENCODE, the fields in the order of 30_encoding.md R47, most significant first. -/
def encodeFrame (f : SoundFrame) : Word32 :=
  f.bw1 ++ f.bw2 ++ f.bw3 ++ f.bw4 ++ f.fm3 ++ f.fm2 ++ f.fm1 ++ f.ampl ++ f.fd ++ encodePI f.pi

/-- 40_frame_decoder.md R75: the number of ticks a frame is applied for. -/
def durTicks (f : SoundFrame) : Nat := 2 ^ f.fd.toNat

/-- 40_frame_decoder.md R75: the duration in ms. -/
def durMs (f : SoundFrame) : Nat := tickMs * durTicks f

/-- The `pitch` signal of the dispatch bundle (30_encoding.md R60): the code of the increment, 0 for noise. -/
def pitchSignal : PitchOrNoise → BitVec 5
  | .noise => 0#5
  | .pitch d => BitVec.ofInt 5 d.val

/-- The `noise` signal of the dispatch bundle (30_encoding.md R60). -/
def noiseSignal : PitchOrNoise → BitVec 1
  | .noise => 1#1
  | .pitch _ => 0#1

/-- 30_encoding.md R60: `FRAME[32:0] = cat(noise, bw1, bw2, bw3, bw4, fm3, fm2, fm1, ampl, fd, pitch)`. -/
def frameBundle (f : SoundFrame) : BitVec 33 :=
  noiseSignal f.pi ++ f.bw1 ++ f.bw2 ++ f.bw3 ++ f.bw4 ++ f.fm3 ++ f.fm2 ++ f.fm1 ++ f.ampl ++ f.fd
    ++ pitchSignal f.pi

/-! ### Frame classes -/

/-- 30_encoding.md R55: the terminal-marker comparator, on the raw word. -/
def isTerminal (p : Params) (w : Word32) : Bool := w &&& p.termMask == p.termMatch

/-- The classes of 30_encoding.md R56. -/
inductive FrameClass where
  | terminal
  | noise
  | voiced
  deriving DecidableEq, Repr

/-- 30_encoding.md R56: the class of a frame word; TERMINAL is tested first. -/
def classOf (p : Params) (w : Word32) : FrameClass :=
  if isTerminal p w then .terminal
  else if w.extractLsb' 0 5 = 0b10000#5 then .noise
  else .voiced

/-- The frame instruction a word read from storage stands for (30_encoding.md R56). -/
def decodeFrame (p : Params) (w : Word32) : Instr :=
  match classOf p w with
  | .terminal => .frameTerminal (decodeWord w)
  | .noise => .frameNoise (decodeWord w)
  | .voiced => .frameVoiced (decodeWord w)

/-- The frame instruction at the head of a byte sequence, with the bytes after it; a sequence of fewer than four bytes
is rejected (30_encoding.md R46). -/
def decodeBytes (p : Params) : List Byte → Except Reject (Instr × List Byte)
  | b0 :: b1 :: b2 :: b3 :: rest => .ok (decodeFrame p (wordOfBytes b0 b1 b2 b3), rest)
  | _ => .error .shortFrame

/-! ### The host command port -/

/-- 30_encoding.md R61: the command slot `HIN[2:1]`. -/
def hinCmd (h : BitVec 3) : BitVec 2 := h.extractLsb' 1 2

/-- 30_encoding.md R61: the tick slot `HIN[0]`. -/
def hinTick (h : BitVec 3) : BitVec 1 := h.extractLsb' 0 1

/-- 30_encoding.md R61: `HIN[2:0] = cat(cmd[1:0], tick)`. -/
def hinOf (c : BitVec 2) (t : BitVec 1) : BitVec 3 := c ++ t

/-- 30_encoding.md R62: `cmd` code of CANCEL. -/
def cmdCancel : BitVec 2 := 0b10#2

/-- 30_encoding.md R62: the command of a `cmd` code, with the operand `sndIn`. -/
def decodeCmd (c : BitVec 2) (sndIn : Ref) : Instr :=
  if c = 0b00#2 then .nop
  else if c = 0b01#2 then .start sndIn
  else if c = cmdCancel then .cancel
  else .rsvd

/-- The tick slot holds TICK or nothing. -/
def decodeTick (t : BitVec 1) : Except Reject Instr := if t = 1#1 then .ok .tick else .error .noTick

/-- The `rst` input holds RESET or nothing. -/
def decodeRst (r : BitVec 1) : Except Reject Instr := if r = 1#1 then .ok .reset else .error .noReset

/-! ### Selection of an internal step -/

/-- The internal step that the code of `st` and the conditions select (41_frame_sequencer.md R87, R98; the table's rows
LOAD_FETCH to WAIT). -/
def decodeInternal (st : BitVec 3) (c : InternalCond) : Except Reject Instr :=
  if st = 1#3 then
    if c.cancel then .error .noInternalStep
    else if c.wholeFrame then
      if c.terminal then .ok .loadTerminal else .ok .loadFetch
    else if c.another then .ok .loadCross
    else .ok .loadExhaust
  else if st = 2#3 then
    if c.tick then .ok .wait else .error .noInternalStep
  else if st = 5#3 ∨ st = 6#3 ∨ st = 7#3 then .error .stCodeNeverHeld
  else .error .noInternalStep

/-! ### Instructions -/

/-- The decoder of instructions, total on every code, rejecting by name. -/
def decode (p : Params) : Code → Except Reject Instr
  | .frame w => .ok (decodeFrame p w)
  | .decoder w => .ok (.decode w)
  | .cmd c r => .ok (decodeCmd c r)
  | .tick t => decodeTick t
  | .rst r => decodeRst r
  | .internal st c => decodeInternal st c

/-- The encoder of instructions, from the encodings of spec/opcode_table.json, 30_encoding.md R62 and
40_frame_decoder.md R72. -/
def encode : Instr → Code
  | .frameTerminal f => .frame (encodeFrame f)
  | .frameNoise f => .frame (encodeFrame f)
  | .frameVoiced f => .frame (encodeFrame f)
  | .decode w => .decoder w
  | .nop => .cmd 0b00#2 0
  | .start r => .cmd 0b01#2 r
  | .cancel => .cmd 0b10#2 0
  | .rsvd => .cmd 0b11#2 0
  | .tick => .tick 1#1
  | .reset => .rst 1#1
  | .loadFetch => .internal 1#3 ⟨false, false, true, false, false⟩
  | .loadTerminal => .internal 1#3 ⟨false, false, true, true, false⟩
  | .loadCross => .internal 1#3 ⟨false, false, false, false, true⟩
  | .loadExhaust => .internal 1#3 ⟨false, false, false, false, false⟩
  | .wait => .internal 2#3 ⟨false, true, false, false, false⟩

/-! ### The opcode table's own numbering -/

/-- The space a row's word stands in, by its width (log entry 14): one byte or less with a value below 8 is a `HIN`
word; every other word of at most 32 bits is a frame word. -/
inductive TableWord where
  | hin (h : BitVec 3)
  | frame (w : Word32)
  deriving DecidableEq, Repr

/-- See `TableWord`; none for a word of more than 32 bits. -/
def tableWord (nbits w : Nat) : Option TableWord :=
  if nbits ≤ 8 ∧ w < 8 then some (.hin (BitVec.ofNat 3 w))
  else if w < 2 ^ 32 then some (.frame (BitVec.ofNat 32 w))
  else none

/-- The one instruction of a `HIN` word: its command, or TICK where the command slot holds NOP and the tick bit is set
(log entry 14: a `HIN` word has two slots, each decoded by its own row). -/
def hinLead (h : BitVec 3) (sndIn : Ref) : Instr :=
  if hinCmd h = 0b00#2 ∧ hinTick h = 1#1 then .tick else decodeCmd (hinCmd h) sndIn

/-- The instruction the decoder reads from a row's word, the parameters being the defaults. A frame word is laid out as
storage holds it, most significant byte first. -/
def decodeTableWord (nbits w : Nat) : Option Instr :=
  match tableWord nbits w with
  | some (.hin h) => some (hinLead h 0)
  | some (.frame f) =>
    match decodeBytes Params.default (bytesOfWord f) with
    | .ok (i, _) => some i
    | .error _ => none
  | none => none

end Sys2Proof
end

