-- ==== Sys2Proof/Machine/State.lean ====
section
/-!
DEFINITION. The machine's state as plain data: the registers of 10_state.md R13, the outputs of the block, and the
arguments of the spec's step (parameters, storage contents, inputs), which stand beside them (log entry 1). The state
after reset (10_state.md R29; 70_reset_and_hazards.md R146). The reasons a step can stop.
-/

namespace Sys2Proof.Machine

/-- The five states of the sequencer (10_state.md R15). -/
inductive SeqState where
  | idle
  | loading
  | playing
  | stopped
  | cancelled
  deriving DecidableEq, Repr

/-- Why the last run stopped (10_state.md R21). -/
inductive Reason where
  | none
  | terminal
  | exhausted
  | empty
  | truncated
  deriving DecidableEq, Repr

/-- The registers of the sequencer, exactly those of 10_state.md R13. -/
structure Regs where
  /-- sequencer state (R15) -/
  st : SeqState
  /-- the latched NamedSound reference; `none` is the value NONE (R16) -/
  snd : Option Ref
  /-- index of the current SoundBuffer (R17) -/
  bi : Nat
  /-- byte offset of the next frame in buffer `bi` (R17) -/
  off : Nat
  /-- ticks left in the current frame's wait (R19) -/
  cnt : BitVec 4
  /-- cancellation pending (R20) -/
  cp : Bool
  /-- why the last run stopped (R21) -/
  reason : Reason
  deriving DecidableEq, Repr

/-- The storage collaborator's contents (20_memory.md R31, R32): NamedSounds by reference. Canonical form: references
strictly rising (`Memory.wf` in Machine/Ops.lean). -/
abbrev Memory := List (Ref × NamedSound)

structure State where
  /-- the registers (10_state.md R13) -/
  regs : Regs
  /-- the dispatch port in the last cycle: `some f` when `dv = 1` and `frame = f`, `none` when `dv = 0` (R23) -/
  port : Option SoundFrame
  /-- MODEL'S OWN (log entry 7): the Frame Decoder's output in the last cycle, none where no word went through it -/
  decoded : Option SoundFrame
  /-- the parameters (00_scope.md R6; an argument of the spec's step, R28; log entry 5) -/
  params : Params
  /-- the storage contents (20_memory.md R31; an argument of the spec's step, R28) -/
  mem : Memory
  /-- the inputs to come, one line a cycle (30_encoding.md R65; log entry 2) -/
  script : List InputLine
  /-- MODEL'S OWN (log entry 2): cycles run so far -/
  cycle : Nat
  deriving DecidableEq, Repr

/-- Why a step stops with a fault. Both arise only in states that no run reaches (10_state.md R25). -/
inductive Fault where
  /-- Raised by a LOAD step in Loading with `snd = NONE`: no NamedSound is named (10_state.md R16). Safe: the spec has no
  such state, and the model stops (log entry 10). -/
  | loadWithoutSound
  /-- Raised by a LOAD step in Loading with `bi >= nbuf`: no such storage location exists (20_memory.md R32). Safe: the
  spec has no such state, and the model stops (log entry 10). -/
  | loadOutsideSound
  deriving DecidableEq, Repr

/-- Why a step gives no meaning. -/
inductive Refusal where
  /-- Raised by an arm of exec whose instruction has no meaning yet; no arm does. Safe. -/
  | notModelled (mnemonic : String)
  deriving DecidableEq, Repr

/-- What a meaning and a step answer. -/
abbrev Answer (σ : Type) := Host.Outcome σ Fault Refusal

/-- 10_state.md R29: the reset value of every register. -/
def Regs.reset : Regs where
  st := .idle
  snd := none
  bi := 0
  off := 0
  cnt := 0#4
  cp := false
  reason := .none

/-- The machine right after reset (70_reset_and_hazards.md R146): registers at their reset values and `dv = 0`; the
parameters at their defaults, storage with nothing listed, no line scripted (log entries 2, 3, 5, 7). -/
def State.reset : State where
  regs := Regs.reset
  port := none
  decoded := none
  params := Params.default
  mem := []
  script := []
  cycle := 0

end Sys2Proof.Machine
end

