-- ==== Sys2Proof/Machine/Ops.lean ====
section
/-!
DEFINITION. The named operations over storage, registers and ports: the storage read (20_memory.md), the updates a
meaning makes, entry to Stopped, which is the spec's counterpart of taking an exception (60_exceptions.md R134), and the
way out of it, START (R135).
-/

namespace Sys2Proof.Machine

/-- Run `k` on the state an answer holds; a fault or a refusal passes through. -/
def andThen (o : Answer State) (k : State → Answer State) : Answer State :=
  match o with
  | .next s => k s
  | .fault f => .fault f
  | .refused r => .refused r

/-! ### Storage -/

/-- Canonical form: the references of a memory rise strictly, so that equal contents are equal lists. -/
def Memory.wf : Memory → Bool
  | [] => true
  | [_] => true
  | (r, _) :: (q, S) :: rest => r < q && Memory.wf ((q, S) :: rest)

/-- The NamedSound listed for a reference. -/
def Memory.find? : Memory → Ref → Option NamedSound
  | [], _ => none
  | (q, S) :: rest, r => if q = r then some S else Memory.find? rest r

/-- The NamedSound a reference denotes (20_memory.md R31); a free value where storage lists none (log entry 3). -/
def Memory.sound (m : Memory) (r : Ref) : NamedSound := (m.find? r).getD (Config.unlistedSound r)

/-- One byte of storage, by the triple of 20_memory.md R32; none where no such location exists. -/
def Memory.byteAt (m : Memory) (r : Ref) (b o : Nat) : Option Byte := ((m.sound r)[b]?).bind (·[o]?)

/-- Storage with a NamedSound placed under a reference, before the machine runs (70_reset_and_hazards.md R149, step 1).
No step of the machine does this: storage has no write primitive (20_memory.md R33). -/
def Memory.place : Memory → Ref → NamedSound → Memory
  | [], r, S => [(r, S)]
  | (q, T) :: rest, r, S =>
    if r < q then (r, S) :: (q, T) :: rest
    else if r = q then (r, S) :: rest
    else (q, T) :: Memory.place rest r S

/-- A reference above every listed one. -/
def Memory.fresh : Memory → Ref
  | [] => 0
  | (q, _) :: rest => max (q + 1) (Memory.fresh rest)

/-- 20_memory.md R33, R34: `word(MemRead((b, o), 4))` in a buffer; `some` exactly when `o + 4 <= len`. -/
def readWord (buf : SoundBuffer) (o : Nat) : Option Word32 :=
  match buf.drop o with
  | b0 :: b1 :: b2 :: b3 :: _ => some (wordOfBytes b0 b1 b2 b3)
  | _ => none

/-! ### Registers and ports -/

/-- The state with new register values. -/
def State.withRegs (s : State) (r : Regs) : State := { s with regs := r }

/-- The Frame Decoder's output in this cycle (log entry 7). -/
def State.withDecoded (s : State) (f : SoundFrame) : State := { s with decoded := some f }

/-- 41_frame_sequencer.md R90: `Dispatch(f)`, `dv = 1` and `frame = f` in this cycle. -/
def State.withDispatch (s : State) (f : SoundFrame) : State := { s with port := some f }

/-- The inputs of the coming cycle: the script's next line, a free value beyond its end (log entry 2). -/
def State.inputLine (s : State) : InputLine := s.script.head?.getD (Config.freeLine s.cycle)

/-- The start of a cycle: `dv <- 0` (41_frame_sequencer.md R87), no decoder output yet, one line taken from the script. -/
def State.beginCycle (s : State) : State :=
  { s with port := none, decoded := none, script := s.script.tail, cycle := s.cycle + 1 }

/-- 70_reset_and_hazards.md R146: every register takes its reset value, and `dv = 0`. -/
def State.resetRegs (s : State) : State := { s with regs := Regs.reset, port := none, decoded := none }

/-! ### Entry to Stopped and to Cancelled -/

/-- 60_exceptions.md R134: entry to Stopped saves the cause in `reason` and leaves the cursor, `snd`, `cnt` and `cp`. -/
def State.enterStopped (s : State) (why : Reason) : State :=
  s.withRegs { s.regs with st := .stopped, reason := why }

/-- 41_frame_sequencer.md R95 in Idle and Loading: `st <- Cancelled; cp <- 1`. -/
def State.enterCancelled (s : State) : State :=
  s.withRegs { s.regs with st := .cancelled, cp := true }

/-! ### The parts of LOAD and WAIT -/

/-- 41_frame_sequencer.md R99: dispatch a frame, advance the cursor by 4, load the wait, enter Playing. -/
def State.dispatchFrame (s : State) (f : SoundFrame) : State :=
  (s.withDispatch f).withRegs
    { s.regs with st := .playing, off := s.regs.off + 4, cnt := BitVec.ofNat 4 (durTicks f) }

/-- 41_frame_sequencer.md R101: cross to the start of the next buffer. -/
def State.cross (s : State) : State := s.withRegs { s.regs with bi := s.regs.bi + 1, off := 0 }

/-- 41_frame_sequencer.md R105: where a wait that ends goes. -/
def waitEndState (cp : Bool) : SeqState := if cp then .cancelled else .loading

/-- 41_frame_sequencer.md R104, R105: one tick of a wait. `cp` is read after the cycle's command has acted (R88). -/
def State.waitTick (s : State) : State :=
  s.withRegs
    { s.regs with
      cnt := s.regs.cnt - 1#4
      st := if s.regs.cnt = 1#4 then waitEndState s.regs.cp else s.regs.st }

end Sys2Proof.Machine
end

