-- ==== Sys2Proof/Machine/Operands.lean ====
section
/-!
DEFINITION. The operands of the sequencer's operations: the sound START is given and the checks made on it
(41_frame_sequencer.md R93), and the frame the cursor points at (R98).
-/

namespace Sys2Proof.Machine

/-! ### START's operand -/

/-- 41_frame_sequencer.md R93: some buffer's length is not a multiple of 4. -/
def hasTruncated (S : NamedSound) : Bool := S.any fun buf => buf.length % 4 != 0

/-- 41_frame_sequencer.md R93: `widthOverflow`, only with finite `P_BI_W` or `P_OFF_W`. -/
def widthOverflow (p : Params) (S : NamedSound) : Bool :=
  p.biW.any (fun w => 2 ^ w < S.length) || p.offW.any fun w => S.any fun buf => 2 ^ w - 1 < buf.length

/-- 41_frame_sequencer.md R93: no buffer, or buffer 0 empty. -/
def isEmptySound : NamedSound → Bool
  | [] => true
  | buf :: _ => buf.isEmpty

/-- 41_frame_sequencer.md R93: the state START enters and the reason it records; TRUNCATED is tested before EMPTY
(60_exceptions.md R133). -/
def startResult (p : Params) (S : NamedSound) : SeqState × Reason :=
  if hasTruncated S || widthOverflow p S then (.stopped, .truncated)
  else if isEmptySound S then (.stopped, .empty)
  else (.loading, .none)

/-- 41_frame_sequencer.md R93: START is accepted in Idle, Stopped and Cancelled. -/
def SeqState.acceptsStart : SeqState → Bool
  | .idle => true
  | .loading => false
  | .playing => false
  | .stopped => true
  | .cancelled => true

/-- 41_frame_sequencer.md R93: `doStart`. Every register is written. -/
def State.doStart (s : State) (r : Ref) : State :=
  s.withRegs
    { st := (startResult s.params (s.mem.sound r)).1
      snd := some r
      bi := 0
      off := 0
      cnt := 0#4
      cp := false
      reason := (startResult s.params (s.mem.sound r)).2 }

/-! ### LOAD's operand -/

/-- The latched NamedSound (10_state.md R16). -/
def State.sound? (s : State) : Option NamedSound := s.regs.snd.map s.mem.sound

/-- What the LOAD step finds at the cursor. -/
inductive LoadCase where
  /-- not in Loading: no LOAD step -/
  | notLoading
  /-- a whole frame is left and its word is not terminal (41_frame_sequencer.md R99) -/
  | fetch (w : Word32)
  /-- a whole frame is left and its word is terminal (R100) -/
  | terminal (w : Word32)
  /-- the buffer is exhausted and another follows (R101) -/
  | cross
  /-- the last buffer is exhausted (R102) -/
  | exhaust
  deriving DecidableEq, Repr

/-- 41_frame_sequencer.md R98 on a buffer of a sound of `nbuf` buffers. -/
def loadCaseIn (p : Params) (nbuf bi off : Nat) (buf : SoundBuffer) : LoadCase :=
  match readWord buf off with
  | some w => if isTerminal p w then .terminal w else .fetch w
  | none => if bi + 1 < nbuf then .cross else .exhaust

/-- 41_frame_sequencer.md R98: the fetch condition. A fault where no storage location is named, which no reachable state
does (20_memory.md R39; log entry 10). -/
def State.loadCase (s : State) : Except Fault LoadCase :=
  if s.regs.st = .loading then
    match s.sound? with
    | none => .error .loadWithoutSound
    | some S =>
      match S[s.regs.bi]? with
      | none => .error .loadOutsideSound
      | some buf => .ok (loadCaseIn s.params S.length s.regs.bi s.regs.off buf)
  else .ok .notLoading

/-- The conditions of the internal-step rows of the opcode table that a LOAD case meets, in a cycle without CANCEL. -/
def LoadCase.cond : LoadCase → InternalCond
  | .notLoading => ⟨false, false, false, false, false⟩
  | .fetch _ => ⟨false, false, true, false, false⟩
  | .terminal _ => ⟨false, false, true, true, false⟩
  | .cross => ⟨false, false, false, false, true⟩
  | .exhaust => ⟨false, false, false, false, false⟩

end Sys2Proof.Machine
end

