-- ==== Sys2Proof/Machine/Commands.lean ====
section
/-!
DEFINITION. The meanings of the host commands NOP, START, CANCEL and RSVD and of RESET: what each does to the registers
in its cycle, before the cycle's tick and LOAD step (41_frame_sequencer.md R88). The internal step that the cycle still
performs (R91) is the cycle's (Machine/Cycle.lean).
-/

namespace Sys2Proof.Machine

/-- NOP, 41_frame_sequencer.md R91: no register write. -/
def execNop (s : State) : Answer State := .next s

/-- RSVD, 41_frame_sequencer.md R92: identical to NOP. -/
def execRsvd (s : State) : Answer State := .next s

/-- START, 41_frame_sequencer.md R93; ignored in Loading and Playing (R94). -/
def execStart (r : Ref) (s : State) : Answer State :=
  .next (if s.regs.st.acceptsStart then s.doStart r else s)

/-- The effect of CANCEL in each state, 41_frame_sequencer.md R95, R96. -/
def State.afterCancel (s : State) : State :=
  match s.regs.st with
  | .idle => s.enterCancelled
  | .loading => s.enterCancelled
  | .playing => s.withRegs { s.regs with cp := true }
  | .stopped => s
  | .cancelled => s

/-- CANCEL, 41_frame_sequencer.md R95, R96. -/
def execCancel (s : State) : Answer State := .next s.afterCancel

/-- RESET, 70_reset_and_hazards.md R146. -/
def execReset (s : State) : Answer State := .next s.resetRegs

end Sys2Proof.Machine
end

