-- ==== Sys2Proof/Machine/Frames.lean ====
section
/-!
DEFINITION. The meanings of the frame rows and of DECODE: FRAME_TERMINAL, FRAME_NOISE, FRAME_VOICED (30_encoding.md R56;
41_frame_sequencer.md R99, R100, R115) and DECODE (40_frame_decoder.md R66). The sequencer acts on a frame in Loading
only; a frame instruction in any other state leaves the state as it is (log entry 9).
-/

namespace Sys2Proof.Machine

/-- 40_frame_decoder.md R66: DECODE. The result is the decoder's output; no register is written and nothing is
dispatched (10_state.md R24). -/
def execDecode (w : Word32) (s : State) : Answer State := .next (s.withDecoded (decodeWord w))

/-- FRAME_TERMINAL, 41_frame_sequencer.md R100: `st <- Stopped; reason <- TERMINAL`, not dispatched. The fields are not
used: the comparator has read the word. -/
def execFrameTerminal (_f : SoundFrame) (s : State) : Answer State :=
  .next (if s.regs.st = .loading then s.enterStopped .terminal else s)

/-- FRAME_NOISE, 41_frame_sequencer.md R99: dispatched like any frame (R115). -/
def execFrameNoise (f : SoundFrame) (s : State) : Answer State :=
  .next (if s.regs.st = .loading then s.dispatchFrame f else s)

/-- FRAME_VOICED, 41_frame_sequencer.md R99. -/
def execFrameVoiced (f : SoundFrame) (s : State) : Answer State :=
  .next (if s.regs.st = .loading then s.dispatchFrame f else s)

/-- What the sequencer does with a word it has read: the meaning of the word's class (30_encoding.md R56). -/
def runFrame (w : Word32) (s : State) : Answer State :=
  match classOf s.params w with
  | .terminal => execFrameTerminal (decodeWord w) s
  | .noise => execFrameNoise (decodeWord w) s
  | .voiced => execFrameVoiced (decodeWord w) s

end Sys2Proof.Machine
end

