-- ==== Sys2Proof/Machine/Internal.lean ====
section
/-!
DEFINITION. The meanings of the internal steps LOAD_FETCH, LOAD_TERMINAL, LOAD_CROSS, LOAD_EXHAUST and WAIT, and of TICK
(41_frame_sequencer.md R97 to R105). An internal step in a state that does not select it leaves the state as it is (log
entry 9).
-/

namespace Sys2Proof.Machine

/-- LOAD_FETCH, 41_frame_sequencer.md R99: the word at the cursor goes through the decoder and is run as the frame it
is. -/
def execLoadFetch (s : State) : Answer State :=
  match s.loadCase with
  | .error f => .fault f
  | .ok (.fetch w) => andThen (execDecode w s) (runFrame w)
  | .ok _ => .next s

/-- LOAD_TERMINAL, 41_frame_sequencer.md R100. -/
def execLoadTerminal (s : State) : Answer State :=
  match s.loadCase with
  | .error f => .fault f
  | .ok (.terminal w) => runFrame w s
  | .ok _ => .next s

/-- LOAD_CROSS, 41_frame_sequencer.md R101. -/
def execLoadCross (s : State) : Answer State :=
  match s.loadCase with
  | .error f => .fault f
  | .ok .cross => .next s.cross
  | .ok _ => .next s

/-- LOAD_EXHAUST, 41_frame_sequencer.md R102. -/
def execLoadExhaust (s : State) : Answer State :=
  match s.loadCase with
  | .error f => .fault f
  | .ok .exhaust => .next (s.enterStopped .exhausted)
  | .ok _ => .next s

/-- WAIT, 41_frame_sequencer.md R104, R105. -/
def execWait (s : State) : Answer State := .next (if s.regs.st = .playing then s.waitTick else s)

/-- TICK, 41_frame_sequencer.md R103, R104: in Playing it makes the WAIT step happen; elsewhere it has no effect and is
not remembered. -/
def execTick (s : State) : Answer State := if s.regs.st = .playing then execWait s else .next s

end Sys2Proof.Machine
end

