-- ==== Sys2Proof/Machine/Dispatch.lean ====
section
/-!
DEFINITION. One meaning per constructor of Instr.
-/

namespace Sys2Proof.Machine

def exec (i : Instr) (s : State) : Host.Outcome State Fault Refusal :=
  match i with
  | .frameTerminal f => Sys2Proof.Machine.execFrameTerminal f s
  | .frameNoise f => Sys2Proof.Machine.execFrameNoise f s
  | .frameVoiced f => Sys2Proof.Machine.execFrameVoiced f s
  | .decode w => Sys2Proof.Machine.execDecode w s
  | .nop => Sys2Proof.Machine.execNop s
  | .start r => Sys2Proof.Machine.execStart r s
  | .cancel => Sys2Proof.Machine.execCancel s
  | .rsvd => Sys2Proof.Machine.execRsvd s
  | .tick => Sys2Proof.Machine.execTick s
  | .reset => Sys2Proof.Machine.execReset s
  | .loadFetch => Sys2Proof.Machine.execLoadFetch s
  | .loadTerminal => Sys2Proof.Machine.execLoadTerminal s
  | .loadCross => Sys2Proof.Machine.execLoadCross s
  | .loadExhaust => Sys2Proof.Machine.execLoadExhaust s
  | .wait => Sys2Proof.Machine.execWait s

end Sys2Proof.Machine
end

