-- ==== Sys2Proof/Machine/Flags.lean ====
section
/-!
DEFINITION. The status bits (10_state.md R20, R21, R27), the codes of `st` and `reason` (R15, R21), and the STATUS port
(R22). The FDS has no condition codes (R27).
-/

namespace Sys2Proof.Machine

/-- 10_state.md R15: the code of `st`. -/
def SeqState.code : SeqState → BitVec 3
  | .idle => 0#3
  | .loading => 1#3
  | .playing => 2#3
  | .stopped => 3#3
  | .cancelled => 4#3

/-- 10_state.md R21: the code of `reason`. -/
def Reason.code : Reason → BitVec 3
  | .none => 0#3
  | .terminal => 1#3
  | .exhausted => 2#3
  | .empty => 3#3
  | .truncated => 4#3

/-- 10_state.md R20: the bit `cp`. -/
def cpBit (cp : Bool) : BitVec 1 := BitVec.ofBool cp

/-- 10_state.md R22: `STATUS[6:0] = cat(cp, reason, st)`, the registers at the start of the cycle. -/
def State.status (s : State) : BitVec 7 := cpBit s.regs.cp ++ s.regs.reason.code ++ s.regs.st.code

/-- 10_state.md R23: the strobe `dv`. -/
def State.dv (s : State) : BitVec 1 := BitVec.ofBool s.port.isSome

/-- 10_state.md R23, 30_encoding.md R60: the 33-bit bundle on the dispatch port, none when `dv = 0`. -/
def State.frameOut (s : State) : Option (BitVec 33) := s.port.map frameBundle

end Sys2Proof.Machine
end

