-- ==== Sys2Proof/Machine/Cycle.lean ====
section
/-!
DEFINITION. One clock cycle (41_frame_sequencer.md R87, R88): the inputs are decoded slot by slot, each slot's instruction
is run, and in Loading the LOAD step that `st` and the cursor select. And how an instruction's word is put where the next
cycle reads it.
-/

namespace Sys2Proof.Machine

/-- Run the instruction a slot holds; a slot that holds none does nothing. -/
def runSlot (slot : Except Reject Instr) (s : State) : Answer State :=
  match slot with
  | .ok i => exec i s
  | .error _ => .next s

/-- The LOAD slot of a cycle: the internal step that the state at the start of the cycle, `s0`, selects, run on `s`
(41_frame_sequencer.md R87). A CANCEL pre-empts it before storage is read (R88, R95, R97). -/
def runLoad (cancel : Bool) (s0 s : State) : Answer State :=
  if cancel then .next s
  else
    match s0.loadCase with
    | .error f => .fault f
    | .ok c => runSlot (decodeInternal s0.regs.st.code c.cond) s

/-- A cycle without reset: command, then tick, then LOAD (41_frame_sequencer.md R88). -/
def runInputs (l : InputLine) (s : State) : Answer State :=
  andThen (exec (decodeCmd (hinCmd l.hin) l.sndIn) s) fun s1 =>
    andThen (runSlot (decodeTick (hinTick l.hin)) s1) fun s2 =>
      runLoad (hinCmd l.hin == cmdCancel) s s2

/-- 41_frame_sequencer.md R87: one cycle with the inputs `l`. Reset overrides every other input (R88). -/
def runCycle (l : InputLine) (s : State) : Answer State :=
  match decodeRst l.rst with
  | .ok i => exec i s
  | .error _ => runInputs l s

/-- A line with no reset and no operand. -/
def lineOf (h : BitVec 3) : InputLine := ⟨0#1, h, 0⟩

/-- The next line of the script replaced by a `HIN` word (its operand `sndIn` is 0). -/
def State.withHin (s : State) (h : BitVec 3) : State := { s with script := lineOf h :: s.script.tail }

/-- A machine about to fetch a frame word: Loading, the cursor at the start of a sound of one buffer that holds the
word's four bytes, and a NOP without tick as the next line. -/
def State.withFrame (s : State) (w : Word32) : State :=
  { s with
    regs := { Regs.reset with st := .loading, snd := some s.mem.fresh }
    mem := s.mem.place s.mem.fresh [bytesOfWord w]
    script := lineOf 0b000#3 :: s.script.tail }

end Sys2Proof.Machine
end

