-- ==== Sys2Proof/Machine/Step.lean ====
section
/-!
DEFINITION. The machine's step is one clock cycle (41_frame_sequencer.md R87), and the placing of an instruction's word
where the next step reads it (log entry 14).
-/

namespace Sys2Proof.Machine

/-- One clock cycle with the inputs of the script's next line. -/
def step (s : State) : Host.Outcome State Fault Refusal := runCycle s.inputLine s.beginCycle

/-- The state with a row's word placed where the next step fetches it. -/
def State.withFetchWord (s : State) (nbits w : Nat) : State :=
  match tableWord nbits w with
  | some (.hin h) => s.withHin h
  | some (.frame f) => s.withFrame f
  | none => s

end Sys2Proof.Machine
end

