-- ==== Sys2Proof/Safety.lean ====
section
/-!
DEFINITION. What claims about the FDS are stated in: the invariant of 10_state.md R25, runs driven by a host and a time
base (41_frame_sequencer.md R108 to R114), and the frame stream of a sound (R108).
-/

namespace Sys2Proof

/-! ### Input lines -/

/-- `rst = 1` in a line. -/
def InputLine.isReset (l : InputLine) : Bool := l.rst == 1#1

/-- `cmd = START` in a line (30_encoding.md R62). -/
def InputLine.isStart (l : InputLine) : Bool := hinCmd l.hin == 0b01#2

/-- `cmd = CANCEL` in a line (30_encoding.md R62). -/
def InputLine.isCancel (l : InputLine) : Bool := hinCmd l.hin == 0b10#2

/-- `tick = 1` in a line (30_encoding.md R61). -/
def InputLine.isTick (l : InputLine) : Bool := hinTick l.hin == 1#1

/-- 70_reset_and_hazards.md R151: Q, the clock cycles between two ticks (`P_CLK` times 8 ms), where the clock frequency is
fixed. DESIGN CHOICE (log entry 22): where the product is no whole number of cycles, it is rounded down; the spec is
silent on rounding. No step and no statement reads it. -/
def Params.tickPeriod (p : Params) : Option Nat := p.clkHz.map fun f => f * tickMs / 1000

end Sys2Proof

namespace Sys2Proof.Machine

/-- 10_state.md R25: what holds in every reachable state, clause by clause (the alignment clause is R18). -/
structure Inv (s : State) : Prop where
  /-- `st = Playing` implies `cnt` is in 1..8. -/
  playingCnt : s.regs.st = .playing → 1 ≤ s.regs.cnt.toNat ∧ s.regs.cnt.toNat ≤ 8
  /-- `st = Loading` implies `cp = 0` and `cnt = 0`. -/
  loadingClear : s.regs.st = .loading → s.regs.cp = false ∧ s.regs.cnt = 0#4
  /-- `st = Cancelled` implies `cp = 1` and `reason = NONE`. -/
  cancelledPending : s.regs.st = .cancelled → s.regs.cp = true ∧ s.regs.reason = .none
  /-- `st` in {Idle, Loading, Playing} implies `reason = NONE`. -/
  runningNoReason :
    s.regs.st = .idle ∨ s.regs.st = .loading ∨ s.regs.st = .playing → s.regs.reason = .none
  /-- `st = Stopped` implies `reason` is in {TERMINAL, EXHAUSTED, EMPTY, TRUNCATED}. -/
  stoppedReason : s.regs.st = .stopped → s.regs.reason ≠ .none
  /-- `snd = NONE` implies `st` is in {Idle, Cancelled}. -/
  noSoundQuiet : s.regs.snd = none → s.regs.st = .idle ∨ s.regs.st = .cancelled
  /-- `off` is a multiple of 4. -/
  aligned : s.regs.off % 4 = 0
  /-- In Loading and Playing, `bi < nbuf` and `off <= len(bi)`. -/
  cursorInSound :
    s.regs.st = .loading ∨ s.regs.st = .playing →
      ∃ S buf, s.sound? = some S ∧ S[s.regs.bi]? = some buf ∧ s.regs.off ≤ buf.length

/-- The sound of a run passed START's checks (41_frame_sequencer.md R93): no truncated buffer, no register width
exceeded, buffer 0 not empty. -/
def LatchedSoundAccepted (s : State) : Prop :=
  s.regs.st = .loading ∨ s.regs.st = .playing →
    ∃ S, s.sound? = some S ∧ startResult s.params S = (.loading, .none)

/-- 41_frame_sequencer.md R93: the condition of TRUNCATED in words of the sound: a length that is not a multiple of 4, or
more buffers than `bi` can number, or a buffer longer than `off` can reach. -/
def RejectsAsTruncated (p : Params) (S : NamedSound) : Prop :=
  (∃ buf ∈ S, buf.length % 4 ≠ 0)
    ∨ (∃ w, p.biW = some w ∧ 2 ^ w < S.length)
    ∨ ∃ w, p.offW = some w ∧ ∃ buf ∈ S, 2 ^ w - 1 < buf.length

/-- 41_frame_sequencer.md R93: the condition of EMPTY in words of the sound: no buffer, or buffer 0 of length 0. -/
def RejectsAsEmpty (S : NamedSound) : Prop := S = [] ∨ ∃ rest, S = [] :: rest

/-- 41_frame_sequencer.md R93: what START leaves in `st` and `reason` for the sound `S`, case by case. -/
def StartOutcome (p : Params) (S : NamedSound) (st : SeqState) (reason : Reason) : Prop :=
  (RejectsAsTruncated p S → st = .stopped ∧ reason = .truncated)
    ∧ (¬RejectsAsTruncated p S → RejectsAsEmpty S → st = .stopped ∧ reason = .empty)
    ∧ (¬RejectsAsTruncated p S → ¬RejectsAsEmpty S → st = .loading ∧ reason = .none)

/-- 00_scope.md R6: every listed sound keeps within `P_NBUF_MAX` and `P_BUF_LEN_MAX`, where these are finite. No rule of
the sequencer reads the two (log entry 17). -/
def Memory.withinLimits (p : Params) (m : Memory) : Bool :=
  m.all fun e => p.nbufMax.all (e.2.length ≤ ·) && p.bufLenMax.all fun n => e.2.all (·.length ≤ n)

/-! ### Runs -/

/-- A START that 41_frame_sequencer.md R93 acts on, in state `s`. -/
def startsRun (l : InputLine) (s : State) : Bool := !l.isReset && l.isStart && s.regs.st.acceptsStart

/-- The host and the time base drive the line `l` in the coming cycle. -/
def State.driven (s : State) (l : InputLine) : State := { s with script := [l] }

/-- `n` cycles from `s`, cycle `k` driven by `ins k`. -/
def drive (ins : Nat → InputLine) : Nat → State → Answer State
  | 0, s => .next s
  | n + 1, s => andThen (drive ins n s) fun t => step (t.driven (ins n))

/-- The frame dispatched in cycle `n`, if one is (10_state.md R23). -/
def dispatchAt (ins : Nat → InputLine) (s : State) (n : Nat) : Option SoundFrame :=
  match drive ins (n + 1) s with
  | .next t => t.port
  | _ => none

/-- The frames dispatched in the first `n` cycles, in order of cycle (41_frame_sequencer.md R113). -/
def dispatched (ins : Nat → InputLine) (s : State) (n : Nat) : List SoundFrame :=
  (List.range n).filterMap (dispatchAt ins s)

/-- The ticks driven in the cycles `a, a + 1, ..., a + n - 1`. -/
def ticksFrom (ins : Nat → InputLine) (a n : Nat) : Nat :=
  (List.range n).countP fun k => (ins (a + k)).isTick

/-- 60_exceptions.md R137: ticks arrive infinitely often, the fairness premise of a claim that a run ends. -/
def TicksForever (ins : Nat → InputLine) : Prop := ∀ n, ∃ k, n ≤ k ∧ (ins k).isTick = true

/-- In the cycles `1, ..., n - 1` there is no reset and no START that begins another run: the run that cycle 0 began
goes on. -/
def SameRun (ins : Nat → InputLine) (s : State) (n : Nat) : Prop :=
  ∀ k t, 1 ≤ k → k < n → drive ins k s = .next t → (ins k).isReset = false ∧ startsRun (ins k) t = false

/-- A run from START of `r` with no later CANCEL or `rst` (41_frame_sequencer.md R110). -/
def PlainRun (ins : Nat → InputLine) (s : State) (r : Ref) : Prop :=
  startsRun (ins 0) s = true ∧ (ins 0).sndIn = r
    ∧ ∀ k, 1 ≤ k → (ins k).isReset = false ∧ (ins k).isCancel = false

/-- The state of the sequencer after `n` cycles, if the machine has not stopped. -/
def stateAfter (ins : Nat → InputLine) (s : State) (n : Nat) : Option SeqState :=
  match drive ins n s with
  | .next t => some t.regs.st
  | _ => none

/-- 41_frame_sequencer.md R113: the run ends in cycle `n - 1`: `n` is the first number of cycles, at least one, after
which `st` is Stopped or Cancelled. -/
def RunEndsAt (ins : Nat → InputLine) (s : State) (n : Nat) : Prop :=
  1 ≤ n ∧ (stateAfter ins s n = some .stopped ∨ stateAfter ins s n = some .cancelled)
    ∧ ∀ m, 1 ≤ m → m < n → stateAfter ins s m = some .loading ∨ stateAfter ins s m = some .playing

/-- The cycles among `0, ..., n - 1` that begin in Playing. -/
def playingCycles (ins : Nat → InputLine) (s : State) (n : Nat) : List Nat :=
  (List.range n).filter fun k => stateAfter ins s k == some .playing

/-! ### The frame stream of a sound -/

/-- The words of a buffer at the offsets 0, 4, ..., in order (41_frame_sequencer.md R108). -/
def bufferWords : SoundBuffer → List Word32
  | b0 :: b1 :: b2 :: b3 :: rest => wordOfBytes b0 b1 b2 b3 :: bufferWords rest
  | _ => []

/-- 41_frame_sequencer.md R108: the frame stream of a sound. -/
def frameStream (S : NamedSound) : List Word32 := S.flatMap bufferWords

/-- The words of a sound before its first terminal word; all of them if there is none (41_frame_sequencer.md R110). -/
def playedWords (p : Params) (S : NamedSound) : List Word32 := (frameStream S).takeWhile fun w => !isTerminal p w

/-! ### Clock and ticks -/

/-- The length of the longest run of consecutive empty buffers. -/
def longestEmptyRun : NamedSound → Nat
  | [] => 0
  | buf :: rest => max (((buf :: rest).takeWhile (·.isEmpty)).length) (longestEmptyRun rest)

/-- 70_reset_and_hazards.md R151: `Cmax` of one sound, the most consecutive crossings between two of its frames (log entry
18: 0 where there is one buffer). -/
def maxCrossings (S : NamedSound) : Nat := if S.length ≤ 1 then 0 else longestEmptyRun S.tail + 1

/-- Ticks exactly in the cycles `k` with `k + a` divisible by `Q`: one each `Q` cycles (70_reset_and_hazards.md R151).
Cycle `k` lies in the tick period number `(k + a) / Q`. -/
def TicksEvery (Q a : Nat) (ins : Nat → InputLine) : Prop := ∀ k, (ins k).isTick = true ↔ (k + a) % Q = 0

end Sys2Proof.Machine
end

