-- ==== Sys2Proof/WellFormed.lean ====
section
/-!
DEFINITION. Which instructions are well-formed. Field widths and the exclusion of `Pitch(-16)` are in the types; what is
checked is that a frame stands in the class its constructor names (30_encoding.md R56), under the machine's parameters.
-/

namespace Sys2Proof

/-- Is the PI of a frame the noise sentinel? -/
def isNoise (f : SoundFrame) : Bool := f.pi == .noise

/-- 30_encoding.md R56 as a check on terms: a frame instruction is well-formed when the word it encodes to is of its
class. Every other instruction is well-formed. The terminal test is made on the encoded word (40_frame_decoder.md
R76). -/
def WellFormed (p : Params) : Instr → Bool
  | .frameTerminal f => isTerminal p (encodeFrame f)
  | .frameNoise f => !isTerminal p (encodeFrame f) && isNoise f
  | .frameVoiced f => !isTerminal p (encodeFrame f) && !isNoise f
  | .decode _ => true
  | .nop => true
  | .start _ => true
  | .cancel => true
  | .rsvd => true
  | .tick => true
  | .reset => true
  | .loadFetch => true
  | .loadTerminal => true
  | .loadCross => true
  | .loadExhaust => true
  | .wait => true

end Sys2Proof
end

