-- ==== Sys2Proof/Certificates/Slice0/Obligations.lean ====
section
/-!
DEFINITION. The statements for the provers. Each docstring names the rules of spec/ it formalises, or the log entry it
rests on.
-/

open Sys2Proof Sys2Proof.Machine

/-! ### The Frame Decoder -/

/-- 40_frame_decoder.md R67, R68, R69, R70: the shift and mask of each field extractor. -/
def Obligations.FieldExtractorsShiftAndMask : Prop :=
  ∀ w : Word32,
    (decodeWord w).bw1.toNat = ((w >>> 30) &&& 3#32).toNat
      ∧ (decodeWord w).bw2.toNat = ((w >>> 28) &&& 3#32).toNat
      ∧ (decodeWord w).bw3.toNat = ((w >>> 26) &&& 3#32).toNat
      ∧ (decodeWord w).bw4.toNat = ((w >>> 24) &&& 3#32).toNat
      ∧ (decodeWord w).fm3.toNat = ((w >>> 21) &&& 7#32).toNat
      ∧ (decodeWord w).fm2.toNat = ((w >>> 16) &&& 31#32).toNat
      ∧ (decodeWord w).fm1.toNat = ((w >>> 11) &&& 31#32).toNat
      ∧ (decodeWord w).ampl.toNat = ((w >>> 7) &&& 15#32).toNat
      ∧ (decodeWord w).fd.toNat = ((w >>> 5) &&& 3#32).toNat

/-- 30_encoding.md R47 (the column "byte bits"), R48: where each field lies in the four bytes of a frame; only AMPL spans
two. -/
def Obligations.FieldsByByteBits : Prop :=
  ∀ b0 b1 b2 b3 : Byte,
    (decodeWord (wordOfBytes b0 b1 b2 b3)).bw1 = b0.extractLsb' 6 2
      ∧ (decodeWord (wordOfBytes b0 b1 b2 b3)).bw2 = b0.extractLsb' 4 2
      ∧ (decodeWord (wordOfBytes b0 b1 b2 b3)).bw3 = b0.extractLsb' 2 2
      ∧ (decodeWord (wordOfBytes b0 b1 b2 b3)).bw4 = b0.extractLsb' 0 2
      ∧ (decodeWord (wordOfBytes b0 b1 b2 b3)).fm3 = b1.extractLsb' 5 3
      ∧ (decodeWord (wordOfBytes b0 b1 b2 b3)).fm2 = b1.extractLsb' 0 5
      ∧ (decodeWord (wordOfBytes b0 b1 b2 b3)).fm1 = b2.extractLsb' 3 5
      ∧ (decodeWord (wordOfBytes b0 b1 b2 b3)).ampl = b2.extractLsb' 0 3 ++ b3.extractLsb' 7 1
      ∧ (decodeWord (wordOfBytes b0 b1 b2 b3)).ampl.toNat = (b2 &&& 7#8).toNat * 2 + (b3 >>> 7).toNat
      ∧ (decodeWord (wordOfBytes b0 b1 b2 b3)).fd = b3.extractLsb' 5 2
      ∧ (decodeWord (wordOfBytes b0 b1 b2 b3)).pi = decodePI (b3.extractLsb' 0 5)

/-- 40_frame_decoder.md R71, 30_encoding.md R50: PI is two's complement but for the code 0b10000, which is Noise. -/
def Obligations.PiIsTwosComplementOrNoise : Prop :=
  ∀ p : BitVec 5,
    (p = 0b10000#5 → decodePI p = .noise)
      ∧ (p ≠ 0b10000#5 →
          ∃ d : PitchDelta, decodePI p = .pitch d
            ∧ d.val = if p.getLsbD 4 then (p.toNat : Int) - 32 else (p.toNat : Int))

/-- 40_frame_decoder.md R73: decode and encode are inverse to each other, in both directions. -/
def Obligations.FrameDecodeEncodeInverse : Prop :=
  (∀ f : SoundFrame, decodeWord (encodeFrame f) = f) ∧ ∀ w : Word32, encodeFrame (decodeWord w) = w

/-- Decoding the code of a well-formed instruction gives it back, for every instruction, every operand and all
parameters (30_encoding.md R47, R55, R56, R62; the opcode table). -/
def Obligations.DecodeEncodeInstr : Prop :=
  ∀ (p : Params) (i : Instr), WellFormed p i = true → decode p (encode i) = .ok i

/-- 30_encoding.md R61, R62: the two slots of `HIN` lose no bit, and the four command codes. -/
def Obligations.HinSlotsAndCommandCodes : Prop :=
  (∀ h : BitVec 3, hinOf (hinCmd h) (hinTick h) = h)
    ∧ (∀ (c : BitVec 2) (t : BitVec 1), hinCmd (hinOf c t) = c ∧ hinTick (hinOf c t) = t)
    ∧ ∀ r : Ref,
        decodeCmd 0b00#2 r = .nop ∧ decodeCmd 0b01#2 r = .start r
          ∧ decodeCmd 0b10#2 r = .cancel ∧ decodeCmd 0b11#2 r = .rsvd

/-- 30_encoding.md R56, R57: every word decodes to exactly the frame instruction of its class, TERMINAL tested first,
and that instruction is well-formed. -/
def Obligations.EveryWordHasItsClass : Prop :=
  ∀ (p : Params) (w : Word32),
    (isTerminal p w = true → decodeFrame p w = .frameTerminal (decodeWord w))
      ∧ (isTerminal p w = false → w.extractLsb' 0 5 = 0b10000#5 →
          decodeFrame p w = .frameNoise (decodeWord w) ∧ (decodeWord w).pi = .noise)
      ∧ (isTerminal p w = false → w.extractLsb' 0 5 ≠ 0b10000#5 →
          decodeFrame p w = .frameVoiced (decodeWord w)
            ∧ ∃ d : PitchDelta, (decodeWord w).pi = .pitch d ∧ d.val = (w.extractLsb' 0 5).toInt)
      ∧ WellFormed p (decodeFrame p w) = true

/-- 30_encoding.md R55: the comparator, under all parameters; with the default parameters a word is terminal exactly when
every field but PI is zero, that is, for the words 0x00000000 to 0x0000001F. -/
def Obligations.DefaultTerminalWords : Prop :=
  (∀ (p : Params) (w : Word32), isTerminal p w = true ↔ w &&& p.termMask = p.termMatch)
    ∧ ∀ w : Word32,
      (isTerminal Params.default w = true ↔ w.toNat ≤ 0x1F)
        ∧ (isTerminal Params.default w = true ↔
            (decodeWord w).bw1 = 0#2 ∧ (decodeWord w).bw2 = 0#2 ∧ (decodeWord w).bw3 = 0#2
              ∧ (decodeWord w).bw4 = 0#2 ∧ (decodeWord w).fm3 = 0#3 ∧ (decodeWord w).fm2 = 0#5
              ∧ (decodeWord w).fm1 = 0#5 ∧ (decodeWord w).ampl = 0#4 ∧ (decodeWord w).fd = 0#2)

/-- 40_frame_decoder.md R75, 30_encoding.md R52: the duration of a frame, and the tick count as `cnt` holds it. -/
def Obligations.FrameDurations : Prop :=
  ∀ f : SoundFrame,
    durTicks f = 2 ^ f.fd.toNat ∧ durMs f = 8 * 2 ^ f.fd.toNat
      ∧ (BitVec.ofNat 4 (durTicks f)).toNat = 2 ^ f.fd.toNat
      ∧ (f.fd = 0#2 → durTicks f = 1 ∧ durMs f = 8) ∧ (f.fd = 1#2 → durTicks f = 2 ∧ durMs f = 16)
      ∧ (f.fd = 2#2 → durTicks f = 4 ∧ durMs f = 32) ∧ (f.fd = 3#2 → durTicks f = 8 ∧ durMs f = 64)

/-- 30_encoding.md R60: the 33-bit bundle of a frame, for a voiced and for a noise frame, and that the bundle and the
record carry the same information. -/
def Obligations.DispatchBundleLayout : Prop :=
  (∀ w : Word32,
    (w.extractLsb' 0 5 ≠ 0b10000#5 → frameBundle (decodeWord w) = 0#1 ++ w)
      ∧ (w.extractLsb' 0 5 = 0b10000#5 → frameBundle (decodeWord w) = 1#1 ++ w.extractLsb' 5 27 ++ 0#5))
    ∧ ∀ f g : SoundFrame, frameBundle f = frameBundle g → f = g

/-- 40_frame_decoder.md R77, R78 and 95_test_vectors.md sections 1 and 2.1: words written out, and what they decode
to. -/
def Obligations.WrittenOutWordsDecode : Prop :=
  decodeFrame Params.default 0x86B3CDA0#32
      = .frameVoiced ⟨2#2, 0#2, 1#2, 2#2, 5#3, 19#5, 25#5, 11#4, 1#2, .pitch ⟨0, by decide⟩⟩
    ∧ decodeFrame Params.default 0x00000070#32
      = .frameNoise ⟨0#2, 0#2, 0#2, 0#2, 0#3, 0#5, 0#5, 0#4, 3#2, .noise⟩
    ∧ decodeFrame Params.default 0x00000010#32
      = .frameTerminal ⟨0#2, 0#2, 0#2, 0#2, 0#3, 0#5, 0#5, 0#4, 0#2, .noise⟩
    ∧ decodeFrame Params.default 0x12345678#32
      = .frameVoiced ⟨0#2, 1#2, 0#2, 2#2, 1#3, 20#5, 10#5, 12#4, 3#2, .pitch ⟨-8, by decide⟩⟩
    ∧ decodeFrame Params.default 0xFFFFFFFF#32
      = .frameVoiced ⟨3#2, 3#2, 3#2, 3#2, 7#3, 31#5, 31#5, 15#4, 3#2, .pitch ⟨-1, by decide⟩⟩

/-! ### Storage -/

/-- 20_memory.md R33, R34: the storage read gives the four bytes at the offset, most significant first, exactly where
four bytes are left. -/
def Obligations.StorageReadIsBigEndian : Prop :=
  ∀ (buf : SoundBuffer) (o : Nat),
    (∀ b0 b1 b2 b3 : Byte, buf[o]? = some b0 → buf[o + 1]? = some b1 → buf[o + 2]? = some b2 → buf[o + 3]? = some b3 →
        ∃ w : Word32, readWord buf o = some w
          ∧ w.toNat = b0.toNat * 2 ^ 24 + b1.toNat * 2 ^ 16 + b2.toNat * 2 ^ 8 + b3.toNat)
      ∧ (buf.length < o + 4 → readWord buf o = none)

/-- 20_memory.md R31, R37, R43: no step changes the storage contents, the parameters, or any byte read by its location;
canonical form is kept. -/
def Obligations.StepLeavesStorage : Prop :=
  ∀ s t : State, step s = .next t →
    t.mem = s.mem ∧ t.params = s.params ∧ (s.mem.wf = true → t.mem.wf = true)
      ∧ ∀ r b o, t.mem.byteAt r b o = s.mem.byteAt r b o

/-- 20_memory.md R33, R37, R45: no instruction, of whatever row, changes the storage contents; none changes the
parameters, the inputs to come, or the count of cycles. -/
def Obligations.InstrsLeaveStorageAndInputs : Prop :=
  ∀ (i : Instr) (s t : State), exec i s = .next t →
    t.mem = s.mem ∧ t.params = s.params ∧ t.script = s.script ∧ t.cycle = s.cycle
      ∧ ∀ r b o, t.mem.byteAt r b o = s.mem.byteAt r b o

/-! ### Status and reset -/

/-- 10_state.md R22: the layout of the STATUS port. The codes of `st` and `reason` are those of R15 and R21. -/
def Obligations.StatusPortLayout : Prop :=
  (∀ s : State,
    s.status.extractLsb' 0 3 = s.regs.st.code ∧ s.status.extractLsb' 3 3 = s.regs.reason.code
      ∧ s.status.extractLsb' 6 1 = BitVec.ofBool s.regs.cp)
    ∧ SeqState.idle.code = 0#3 ∧ SeqState.loading.code = 1#3 ∧ SeqState.playing.code = 2#3
    ∧ SeqState.stopped.code = 3#3 ∧ SeqState.cancelled.code = 4#3
    ∧ Reason.none.code = 0#3 ∧ Reason.terminal.code = 1#3 ∧ Reason.exhausted.code = 2#3
    ∧ Reason.empty.code = 3#3 ∧ Reason.truncated.code = 4#3

/-- 10_state.md R29: every register's reset value, and `dv = 0`. -/
def Obligations.ResetValues : Prop :=
  State.reset.regs.st = .idle ∧ State.reset.regs.snd = none ∧ State.reset.regs.bi = 0 ∧ State.reset.regs.off = 0
    ∧ State.reset.regs.cnt = 0#4 ∧ State.reset.regs.cp = false ∧ State.reset.regs.reason = .none
    ∧ State.reset.dv = 0#1

/-- 10_state.md R29, 70_reset_and_hazards.md R146: a cycle with `rst = 1`, whatever the state and the other inputs, ends
in the reset values with no dispatch, and RESET itself completes in every state. -/
def Obligations.ResetOverridesEveryInput : Prop :=
  (∀ (s : State) (l : InputLine), l.rst = 1#1 →
    ∃ t, step (s.driven l) = .next t ∧ t.regs = ⟨.idle, none, 0, 0, 0#4, false, .none⟩ ∧ t.port = none
      ∧ t.dv = 0#1 ∧ t.mem = s.mem ∧ t.params = s.params)
    ∧ ∀ s : State, ∃ t, exec .reset s = .next t ∧ t.regs = ⟨.idle, none, 0, 0, 0#4, false, .none⟩ ∧ t.port = none
        ∧ t.dv = 0#1 ∧ t.mem = s.mem ∧ t.params = s.params ∧ t.script = s.script ∧ t.cycle = s.cycle

/-- The invariant of 10_state.md R25 holds at reset. So do three things that are the model's choice and no rule of the
spec: no sound is latched that START would refuse (`LatchedSoundAccepted`), storage at reset is in the model's canonical
form (log entries 3 and 4), and the parameters at reset meet the constraints on them (log entry 5, 00_scope.md R6). -/
def Obligations.InvariantHoldsAtReset : Prop :=
  Inv State.reset ∧ LatchedSoundAccepted State.reset ∧ State.reset.mem.wf = true ∧ State.reset.params.wf = true

/-- 10_state.md R25: every step keeps the invariant, from every state that has it, with any inputs. -/
def Obligations.StepKeepsInvariant : Prop := ∀ s t : State, Inv s → step s = .next t → Inv t

/-- 60_exceptions.md R126, 20_memory.md R39: from a state with the invariant a step never stops: no fault, no refusal,
no storage location that does not exist. -/
def Obligations.StepNeverStops : Prop := ∀ s : State, Inv s → ∃ t, step s = .next t

/-- 20_memory.md R35, R36: a step keeps the acceptance of the latched sound, and with it every word a LOAD step reads
lies at a multiple of 4, whole, within one buffer whose length is a multiple of 4. -/
def Obligations.ReadsAreAlignedAndWhole : Prop :=
  ∀ s : State, Inv s → LatchedSoundAccepted s →
    (∀ t, step s = .next t → LatchedSoundAccepted t)
      ∧ ∀ w, s.loadCase = .ok (.fetch w) ∨ s.loadCase = .ok (.terminal w) →
          ∃ S buf, s.sound? = some S ∧ S[s.regs.bi]? = some buf ∧ buf.length % 4 = 0
            ∧ s.regs.off % 4 = 0 ∧ s.regs.off + 4 ≤ buf.length ∧ readWord buf s.regs.off = some w

/-- 10_state.md R17: an implementation with finite widths never wraps the cursor: within a run both registers fit. -/
def Obligations.CursorFitsItsWidths : Prop :=
  ∀ s : State, Inv s → LatchedSoundAccepted s → s.regs.st = .loading ∨ s.regs.st = .playing →
    (∀ w, s.params.biW = some w → s.regs.bi < 2 ^ w) ∧ ∀ w, s.params.offW = some w → s.regs.off < 2 ^ w

/-! ### Host commands -/

/-- 41_frame_sequencer.md R91, R92: NOP and RSVD write no register, in every state. -/
def Obligations.NopAndRsvdWriteNothing : Prop :=
  ∀ s : State, exec .nop s = .next s ∧ exec .rsvd s = .next s

/-- 41_frame_sequencer.md R92: a cycle with RSVD is the cycle with NOP, in every state, tick or not. -/
def Obligations.ReservedCommandActsAsNop : Prop :=
  ∀ (s : State) (l l' : InputLine), l.rst = l'.rst → hinTick l.hin = hinTick l'.hin →
    hinCmd l.hin = 0b11#2 → hinCmd l'.hin = 0b00#2 → step (s.driven l) = step (s.driven l')

/-- 41_frame_sequencer.md R93: START in a state that accepts it completes, with every register it writes; `st` and
`reason` by the rule's three cases, TRUNCATED before EMPTY. -/
def Obligations.StartByCase : Prop :=
  ∀ (r : Ref) (s : State), s.regs.st = .idle ∨ s.regs.st = .stopped ∨ s.regs.st = .cancelled →
    ∃ st reason, StartOutcome s.params (s.mem.sound r) st reason
      ∧ exec (.start r) s = .next { s with regs := ⟨st, some r, 0, 0, 0#4, false, reason⟩ }

/-- 41_frame_sequencer.md R94: START in Loading and Playing writes nothing, and its cycle is the cycle with NOP. -/
def Obligations.StartIgnoredWhileBusy : Prop :=
  ∀ s : State, s.regs.st = .loading ∨ s.regs.st = .playing →
    (∀ r, exec (.start r) s = .next s)
      ∧ ∀ l l' : InputLine, l.rst = l'.rst → hinTick l.hin = hinTick l'.hin →
          hinCmd l.hin = 0b01#2 → hinCmd l'.hin = 0b00#2 → step (s.driven l) = step (s.driven l')

/-- 41_frame_sequencer.md R89: `sndIn` is read only by a START that is acted on: otherwise two cycles that differ in it
alone are the same. -/
def Obligations.SndInReadOnlyByAcceptedStart : Prop :=
  ∀ (s : State) (rst : BitVec 1) (hin : BitVec 3) (a b : Ref), startsRun ⟨rst, hin, a⟩ s = false →
    step (s.driven ⟨rst, hin, a⟩) = step (s.driven ⟨rst, hin, b⟩)

/-- 41_frame_sequencer.md R95, R96: CANCEL in each of the five states, with everything it leaves. -/
def Obligations.CancelByState : Prop :=
  ∀ s : State,
    (s.regs.st = .idle ∨ s.regs.st = .loading →
        exec .cancel s = .next { s with regs := { s.regs with st := .cancelled, cp := true } })
      ∧ (s.regs.st = .playing → exec .cancel s = .next { s with regs := { s.regs with cp := true } })
      ∧ (s.regs.st = .stopped ∨ s.regs.st = .cancelled → exec .cancel s = .next s)

/-- 41_frame_sequencer.md R88, R95, 60_exceptions.md R133: a CANCEL in Loading pre-empts every LOAD outcome: no dispatch,
the cursor and `reason` as they were, and no read: the outcome is the same whatever storage holds. -/
def Obligations.CancelPreemptsLoad : Prop :=
  ∀ (s : State) (l : InputLine) (m : Memory), s.regs.st = .loading → l.isReset = false → l.isCancel = true →
    ∃ t, step ({ s with mem := m }.driven l) = .next t ∧ t.regs = { s.regs with st := .cancelled, cp := true }
      ∧ t.port = none

/-- 41_frame_sequencer.md R88: a CANCEL that arrives with the final tick ends the wait in Cancelled. -/
def Obligations.CancelWithFinalTick : Prop :=
  ∀ (s : State) (l : InputLine), s.regs.st = .playing → s.regs.cnt = 1#4 → l.isReset = false →
    l.isCancel = true → l.isTick = true →
    ∃ t, step (s.driven l) = .next t ∧ t.regs = { s.regs with st := .cancelled, cp := true, cnt := 0#4 }
      ∧ t.port = none

/-! ### Tick, WAIT and LOAD -/

/-- 41_frame_sequencer.md R103: TICK outside Playing has no effect, and a cycle with a tick there, a dispatch cycle
included, is the cycle without it. -/
def Obligations.TickIgnoredOutsidePlaying : Prop :=
  ∀ s : State, s.regs.st ≠ .playing →
    exec .tick s = .next s
      ∧ ∀ l l' : InputLine, l.rst = l'.rst → hinCmd l.hin = hinCmd l'.hin → l.sndIn = l'.sndIn →
          step (s.driven l) = step (s.driven l')

/-- 41_frame_sequencer.md R104, R105: TICK in Playing is the WAIT step: `cnt - 1`, and at the last tick Loading, or
Cancelled where a cancellation is pending. R104 has `cnt` in 1..8; `cnt = 0`, which no run reaches, is in
`CntAndStKeptByOtherRows`. -/
def Obligations.WaitCountsDown : Prop :=
  ∀ (i : Instr) (s : State), i = .tick ∨ i = .wait → s.regs.st = .playing → s.regs.cnt ≠ 0#4 →
    (s.regs.cnt ≠ 1#4 → exec i s = .next { s with regs := { s.regs with cnt := s.regs.cnt - 1#4 } })
      ∧ (s.regs.cnt = 1#4 → s.regs.cp = true →
          exec i s = .next { s with regs := { s.regs with cnt := 0#4, st := .cancelled } })
      ∧ (s.regs.cnt = 1#4 → s.regs.cp = false →
          exec i s = .next { s with regs := { s.regs with cnt := 0#4, st := .loading } })

/-- 41_frame_sequencer.md R99: LOAD_FETCH on a whole non-terminal frame dispatches it, advances the cursor by 4, loads
`cnt` with `2^fd` and enters Playing; no other register, nor anything in storage or the inputs, changes. -/
def Obligations.LoadFetchDispatches : Prop :=
  ∀ (s : State) (S : NamedSound) (buf : SoundBuffer) (w : Word32),
    s.regs.st = .loading → s.sound? = some S → S[s.regs.bi]? = some buf → readWord buf s.regs.off = some w →
    isTerminal s.params w = false →
    ∃ t, exec .loadFetch s = .next t
      ∧ t.regs =
          { s.regs with
            st := .playing, off := s.regs.off + 4, cnt := BitVec.ofNat 4 (2 ^ (decodeWord w).fd.toNat) }
      ∧ t.dv = 1#1 ∧ t.port = some (decodeWord w)
      ∧ t.mem = s.mem ∧ t.params = s.params ∧ t.script = s.script ∧ t.cycle = s.cycle

/-- 41_frame_sequencer.md R100: LOAD_TERMINAL on a whole terminal frame stops with reason TERMINAL and dispatches
nothing; `bi`, `off` and `cnt` are unchanged. -/
def Obligations.LoadTerminalStops : Prop :=
  ∀ (s : State) (S : NamedSound) (buf : SoundBuffer) (w : Word32),
    s.regs.st = .loading → s.sound? = some S → S[s.regs.bi]? = some buf → readWord buf s.regs.off = some w →
    isTerminal s.params w = true →
    exec .loadTerminal s = .next { s with regs := { s.regs with st := .stopped, reason := .terminal } }

/-- 41_frame_sequencer.md R101: LOAD_CROSS on an exhausted buffer that another follows. -/
def Obligations.LoadCrossMovesToNextBuffer : Prop :=
  ∀ (s : State) (S : NamedSound) (buf : SoundBuffer),
    s.regs.st = .loading → s.sound? = some S → S[s.regs.bi]? = some buf → buf.length < s.regs.off + 4 →
    s.regs.bi + 1 < S.length →
    exec .loadCross s = .next { s with regs := { s.regs with bi := s.regs.bi + 1, off := 0 } }

/-- 41_frame_sequencer.md R102: LOAD_EXHAUST on the last buffer, exhausted: reason EXHAUSTED, the cursor stays, which in
a run is at (`nbuf` - 1, `len(nbuf-1)`). -/
def Obligations.LoadExhaustStops : Prop :=
  ∀ (s : State) (S : NamedSound) (buf : SoundBuffer),
    s.regs.st = .loading → s.sound? = some S → S[s.regs.bi]? = some buf → buf.length < s.regs.off + 4 →
    S.length ≤ s.regs.bi + 1 →
    exec .loadExhaust s = .next { s with regs := { s.regs with st := .stopped, reason := .exhausted } }
      ∧ (Inv s → LatchedSoundAccepted s → s.regs.bi = S.length - 1 ∧ s.regs.off = buf.length)

/-- 41_frame_sequencer.md R99, R100, R115: the frame rows in Loading: a terminal frame stops, a noise and a voiced frame
are dispatched alike; and DECODE (40_frame_decoder.md R66), in every state, gives the record and writes no register. -/
def Obligations.FrameRowsAndDecode : Prop :=
  (∀ (f : SoundFrame) (s : State), s.regs.st = .loading →
    exec (.frameTerminal f) s = .next { s with regs := { s.regs with st := .stopped, reason := .terminal } }
      ∧ ∀ i, i = .frameNoise f ∨ i = .frameVoiced f →
          exec i s =
            .next
              { s with
                regs :=
                  { s.regs with st := .playing, off := s.regs.off + 4, cnt := BitVec.ofNat 4 (2 ^ f.fd.toNat) }
                port := some f })
    ∧ ∀ (w : Word32) (s : State), exec (.decode w) s = .next { s with decoded := some (decodeWord w) }

/-- Log entry 9 (the model's choice): a row that the state does not select changes nothing: a frame row or a LOAD row
outside Loading, WAIT outside Playing, and in Loading, with the cursor in a buffer, a LOAD row whose condition of
41_frame_sequencer.md R98 does not hold. -/
def Obligations.UnselectedRowsAreInert : Prop :=
  (∀ (f : SoundFrame) (s : State), s.regs.st ≠ .loading →
    exec (.frameTerminal f) s = .next s ∧ exec (.frameNoise f) s = .next s ∧ exec (.frameVoiced f) s = .next s
      ∧ exec .loadFetch s = .next s ∧ exec .loadTerminal s = .next s ∧ exec .loadCross s = .next s
      ∧ exec .loadExhaust s = .next s)
    ∧ (∀ s : State, s.regs.st ≠ .playing → exec .wait s = .next s)
    ∧ ∀ (s : State) (S : NamedSound) (buf : SoundBuffer),
        s.regs.st = .loading → s.sound? = some S → S[s.regs.bi]? = some buf →
        (¬(∃ w, readWord buf s.regs.off = some w ∧ isTerminal s.params w = false) → exec .loadFetch s = .next s)
          ∧ (¬(∃ w, readWord buf s.regs.off = some w ∧ isTerminal s.params w = true) → exec .loadTerminal s = .next s)
          ∧ (¬(buf.length < s.regs.off + 4 ∧ s.regs.bi + 1 < S.length) → exec .loadCross s = .next s)
          ∧ (¬(buf.length < s.regs.off + 4 ∧ S.length ≤ s.regs.bi + 1) → exec .loadExhaust s = .next s)

/-! ### Which operation writes which register -/

/-- 10_state.md R16: `snd` is written by START and by reset, and by nothing else. -/
def Obligations.SndWrittenOnlyByStartAndReset : Prop :=
  ∀ (i : Instr) (s t : State), exec i s = .next t →
    t.regs.snd = s.regs.snd ∨ (i = .reset ∧ t.regs.snd = none) ∨ ∃ r, i = .start r ∧ t.regs.snd = some r

/-- 10_state.md R17: the cursor changes only by START to (0, 0), by 4 with a dispatch, and by a crossing (and by reset,
R29). -/
def Obligations.CursorMovesOnlyInThreeWays : Prop :=
  ∀ (i : Instr) (s t : State), exec i s = .next t →
    (t.regs.bi = s.regs.bi ∧ t.regs.off = s.regs.off)
      ∨ (((∃ r, i = .start r) ∨ i = .reset) ∧ t.regs.bi = 0 ∧ t.regs.off = 0)
      ∨ (s.regs.st = .loading ∧ t.regs.st = .playing ∧ t.regs.bi = s.regs.bi ∧ t.regs.off = s.regs.off + 4
          ∧ t.port.isSome = true)
      ∨ (i = .loadCross ∧ s.regs.st = .loading ∧ t.regs.bi = s.regs.bi + 1 ∧ t.regs.off = 0)

/-- 10_state.md R27: `cp` is written only by CANCEL (set) and by START and reset (clear); `reason` only by START and reset
(clear) and on entry to Stopped: by START (R93), a terminal frame (R100) and exhaustion (R102). -/
def Obligations.FlagsWrittenOnlyAsStated : Prop :=
  ∀ (i : Instr) (s t : State), exec i s = .next t →
    (t.regs.cp = s.regs.cp ∨ (i = .cancel ∧ t.regs.cp = true)
        ∨ (((∃ r, i = .start r) ∨ i = .reset) ∧ t.regs.cp = false))
      ∧ (t.regs.reason = s.regs.reason ∨ (((∃ r, i = .start r) ∨ i = .reset) ∧ t.regs.reason = .none)
        ∨ (t.regs.st = .stopped
          ∧ (((∃ r, i = .start r) ∧ (t.regs.reason = .empty ∨ t.regs.reason = .truncated))
            ∨ (((∃ f, i = .frameTerminal f) ∨ i = .loadTerminal) ∧ t.regs.reason = .terminal)
            ∨ (i = .loadExhaust ∧ t.regs.reason = .exhausted))))

/-- 10_state.md R19 (what writes `cnt`) and R15 (`st` is written by START, CANCEL, LOAD, WAIT and reset): a row that is
none of these keeps both. In Playing with `cnt = 0`, outside the spec and reached by no run, that TICK and WAIT wrap `cnt`
to 15 is the model's choice (log entry 12); the last clause says it out. -/
def Obligations.CntAndStKeptByOtherRows : Prop :=
  ∀ (i : Instr) (s t : State), exec i s = .next t →
    (t.regs.cnt = s.regs.cnt ∨ (((∃ r, i = .start r) ∨ i = .reset) ∧ t.regs.cnt = 0#4)
        ∨ (s.regs.st = .loading ∧ ∃ f, t.port = some f ∧ t.regs.cnt = BitVec.ofNat 4 (2 ^ f.fd.toNat))
        ∨ ((i = .tick ∨ i = .wait) ∧ s.regs.st = .playing ∧ t.regs.cnt = s.regs.cnt - 1#4))
      ∧ ((∃ w, i = .decode w) ∨ i = .nop ∨ i = .rsvd ∨ i = .loadCross → t.regs.st = s.regs.st)
      ∧ (i = .tick ∨ i = .wait → s.regs.st = .playing → s.regs.cnt = 0#4 →
          t = { s with regs := { s.regs with cnt := 15#4 } })

/-- 41_frame_sequencer.md R90, R106, 10_state.md R23: an instruction drives the dispatch port only in Loading, and enters
Playing with it. -/
def Obligations.DispatchOnlyFromLoading : Prop :=
  ∀ (i : Instr) (s t : State), exec i s = .next t →
    t.port = s.port ∨ (i = .reset ∧ t.port = none)
      ∨ (s.regs.st = .loading ∧ t.regs.st = .playing ∧ t.port.isSome = true)

/-! ### One cycle -/

/-- 41_frame_sequencer.md R87, R88: a step takes the next line of inputs, clears `dv`, and runs the decoded instructions
of the cycle: RESET alone, or the command, then TICK, then the LOAD row that `st` and the cursor select. -/
def Obligations.StepRunsDecodedInstructions : Prop :=
  ∀ s : State,
    (s.inputLine.rst = 1#1 → step s = exec .reset s.beginCycle)
      ∧ (s.inputLine.rst ≠ 1#1 →
          step s =
            andThen (exec (decodeCmd (hinCmd s.inputLine.hin) s.inputLine.sndIn) s.beginCycle) fun s1 =>
              andThen (if hinTick s.inputLine.hin = 1#1 then exec .tick s1 else .next s1) fun s2 =>
                runLoad (hinCmd s.inputLine.hin == 0b10#2) s.beginCycle s2)
      ∧ s.beginCycle.regs = s.regs ∧ s.beginCycle.port = none ∧ s.beginCycle.mem = s.mem
      ∧ s.beginCycle.params = s.params ∧ s.beginCycle.script = s.script.tail

/-- 41_frame_sequencer.md R87, R97: in Loading without reset or CANCEL, whatever else is driven, the step is the one LOAD
row that the internal decoder selects from the code of `st` and what the cursor finds; in Idle, Stopped and Cancelled
without reset it is the command's row alone. -/
def Obligations.StepRunsSelectedRow : Prop :=
  ∀ (s : State) (l : InputLine), l.isReset = false →
    (s.regs.st = .loading → l.isCancel = false → ∀ c i, s.loadCase = .ok c →
        decodeInternal s.regs.st.code c.cond = .ok i →
        step (s.driven l) = exec i (s.driven l).beginCycle)
      ∧ (s.regs.st ≠ .loading → s.regs.st ≠ .playing →
          step (s.driven l) = exec (decodeCmd (hinCmd l.hin) l.sndIn) (s.driven l).beginCycle)

/-- 41_frame_sequencer.md R98, 30_encoding.md R56: in Loading without reset or CANCEL, where the four bytes at the cursor,
read from storage one by one, decode to a frame instruction, the step is that instruction (after DECODE, for a frame
that is dispatched). -/
def Obligations.StepRunsFetchedFrame : Prop :=
  ∀ (s : State) (l : InputLine) (r : Ref) (b0 b1 b2 b3 : Byte) (i : Instr) (rest : List Byte),
    l.isReset = false → l.isCancel = false → s.regs.st = .loading → s.regs.snd = some r →
    s.mem.byteAt r s.regs.bi s.regs.off = some b0 → s.mem.byteAt r s.regs.bi (s.regs.off + 1) = some b1 →
    s.mem.byteAt r s.regs.bi (s.regs.off + 2) = some b2 → s.mem.byteAt r s.regs.bi (s.regs.off + 3) = some b3 →
    decodeBytes s.params (b0 :: b1 :: b2 :: b3 :: rest) = .ok (i, rest) →
    (isTerminal s.params (wordOfBytes b0 b1 b2 b3) = true → step (s.driven l) = exec i (s.driven l).beginCycle)
      ∧ (isTerminal s.params (wordOfBytes b0 b1 b2 b3) = false →
          step (s.driven l) =
            andThen (exec (.decode (wordOfBytes b0 b1 b2 b3)) (s.driven l).beginCycle) (exec i))

/-- 41_frame_sequencer.md R116: the state-transition table, row by row, with the dispatch column. -/
def Obligations.TransitionTable : Prop :=
  ∀ (s : State) (l : InputLine), Inv s →
    ∃ t, step (s.driven l) = .next t
      ∧ (l.isReset = true → t.regs = Regs.reset ∧ t.port = none)
      ∧ (l.isReset = false → s.regs.st = .idle →
          t.port = none
            ∧ (l.isStart = true → StartOutcome s.params (s.mem.sound l.sndIn) t.regs.st t.regs.reason)
            ∧ (l.isCancel = true → t.regs.st = .cancelled)
            ∧ (l.isStart = false → l.isCancel = false → t.regs = s.regs))
      ∧ (l.isReset = false → s.regs.st = .loading → l.isCancel = true → t.regs.st = .cancelled ∧ t.port = none)
      ∧ (l.isReset = false → s.regs.st = .loading → l.isCancel = false →
          ∃ S buf, s.sound? = some S ∧ S[s.regs.bi]? = some buf
            ∧ (∀ w, readWord buf s.regs.off = some w → isTerminal s.params w = true →
                t.regs.st = .stopped ∧ t.regs.reason = .terminal ∧ t.port = none)
            ∧ (∀ w, readWord buf s.regs.off = some w → isTerminal s.params w = false →
                t.regs.st = .playing ∧ t.port = some (decodeWord w))
            ∧ (readWord buf s.regs.off = none → s.regs.bi + 1 < S.length → t.regs.st = .loading ∧ t.port = none)
            ∧ (readWord buf s.regs.off = none → S.length ≤ s.regs.bi + 1 →
                t.regs.st = .stopped ∧ t.regs.reason = .exhausted ∧ t.port = none))
      ∧ (l.isReset = false → s.regs.st = .playing →
          t.port = none
            ∧ (l.isTick = true → s.regs.cnt = 1#4 →
                t.regs.st = if s.regs.cp || l.isCancel then .cancelled else .loading)
            ∧ (l.isTick = true → s.regs.cnt ≠ 1#4 → t.regs.st = .playing ∧ t.regs.cnt = s.regs.cnt - 1#4)
            ∧ (l.isTick = false → t.regs.st = .playing ∧ t.regs.cnt = s.regs.cnt)
            ∧ t.regs.cp = (s.regs.cp || l.isCancel))
      ∧ (l.isReset = false → s.regs.st = .stopped ∨ s.regs.st = .cancelled →
          t.port = none
            ∧ (l.isStart = true → StartOutcome s.params (s.mem.sound l.sndIn) t.regs.st t.regs.reason)
            ∧ (l.isStart = false → t.regs = s.regs))

/-- 10_state.md R23, 41_frame_sequencer.md R99: in exactly the cycles whose LOAD step fetches a non-terminal frame is
`dv = 1`, and then `frame` is that frame decoded. -/
def Obligations.DvExactlyInFetchCycles : Prop :=
  ∀ (s t : State) (l : InputLine), step (s.driven l) = .next t →
    (t.dv = 1#1 ↔ t.port.isSome = true)
      ∧ ∀ f, t.port = some f ↔
          l.isReset = false ∧ s.regs.st = .loading ∧ l.isCancel = false
            ∧ ∃ S buf w, s.sound? = some S ∧ S[s.regs.bi]? = some buf ∧ readWord buf s.regs.off = some w
                ∧ isTerminal s.params w = false ∧ f = decodeWord w

/-- 41_frame_sequencer.md R106, R107, 60_exceptions.md R135: Stopped and Cancelled are left only by START and reset, Idle
only by START, CANCEL and reset; otherwise no register changes, nothing is dispatched, and storage is not read: the
outcome is the same whatever it holds. -/
def Obligations.QuiescentStatesHold : Prop :=
  ∀ (s : State) (l : InputLine) (m : Memory), l.isReset = false → l.isStart = false →
    s.regs.st = .stopped ∨ s.regs.st = .cancelled ∨ (s.regs.st = .idle ∧ l.isCancel = false) →
    ∃ t, step ({ s with mem := m }.driven l) = .next t ∧ t.regs = s.regs ∧ t.port = none

/-- 60_exceptions.md R134: entry to Stopped from Loading saves the cause and leaves `bi`, `off`, `snd`, `cnt` and `cp`. -/
def Obligations.EntryToStoppedKeepsCursor : Prop :=
  ∀ (s t : State) (l : InputLine), s.regs.st = .loading → step (s.driven l) = .next t → t.regs.st = .stopped →
    ∃ why, (why = .terminal ∨ why = .exhausted) ∧ t.regs = { s.regs with st := .stopped, reason := why }
      ∧ t.port = none

/-! ### Runs -/

/-- Every run from reset, with any storage, any parameters and any inputs, goes on for ever, and the invariant of
10_state.md R25 holds in every state it reaches. -/
def Obligations.EveryReachableStateHasInvariant : Prop :=
  ∀ (ins : Nat → InputLine) (p : Params) (m : Memory) (n : Nat),
    ∃ t, drive ins n { State.reset with params := p, mem := m } = .next t ∧ Inv t ∧ LatchedSoundAccepted t
      ∧ t.mem = m ∧ t.params = p

/-- 41_frame_sequencer.md R118, 60_exceptions.md R137: without a tick and without reset, Playing holds for ever: the wait
does not move and nothing is dispatched. -/
def Obligations.PlayingHoldsWithoutTick : Prop :=
  ∀ (ins : Nat → InputLine) (s : State) (n : Nat), s.regs.st = .playing →
    (∀ k, k < n → (ins k).isReset = false ∧ (ins k).isTick = false) →
    ∃ t, drive ins n s = .next t ∧ t.regs.st = .playing ∧ t.regs.cnt = s.regs.cnt ∧ t.regs.bi = s.regs.bi
      ∧ t.regs.off = s.regs.off ∧ t.regs.snd = s.regs.snd ∧ dispatched ins s n = []

/-- 41_frame_sequencer.md R108: between one START and the next START or reset, the dispatched frames are the decodings of
a prefix of the sound's frame stream, in order. -/
def Obligations.DispatchesArePrefixOfStream : Prop :=
  ∀ (ins : Nat → InputLine) (s : State) (n : Nat), startsRun (ins 0) s = true → SameRun ins s n →
    ∃ rest, (frameStream (s.mem.sound (ins 0).sndIn)).map decodeWord = dispatched ins s n ++ rest

/-- 41_frame_sequencer.md R110: how a run with no CANCEL and no reset ends, given ticks without end, and exactly which
frames it dispatches. -/
def Obligations.PlainRunDispatchesUpToTerminal : Prop :=
  ∀ (ins : Nat → InputLine) (s : State) (r : Ref) (S : NamedSound),
    PlainRun ins s r → TicksForever ins → S = s.mem.sound r →
    ∃ n t, RunEndsAt ins s n ∧ drive ins n s = .next t ∧ t.regs.st = .stopped
      ∧ (RejectsAsTruncated s.params S →
          t.regs.reason = .truncated ∧ dispatched ins s n = [])
      ∧ (¬RejectsAsTruncated s.params S → RejectsAsEmpty S →
          t.regs.reason = .empty ∧ dispatched ins s n = [])
      ∧ (¬RejectsAsTruncated s.params S → ¬RejectsAsEmpty S →
          dispatched ins s n = (playedWords s.params S).map decodeWord
            ∧ ((playedWords s.params S).length < (frameStream S).length → t.regs.reason = .terminal)
            ∧ ((playedWords s.params S).length = (frameStream S).length → t.regs.reason = .exhausted)
            ∧ (frameStream S).length * 4 = (S.map List.length).sum)

/-- 41_frame_sequencer.md R109: the dispatched sequence of a sound, and how its run ends, are those of the one-buffer
sound of its concatenated buffers. -/
def Obligations.BufferJoinsAreInvisible : Prop :=
  ∀ (ins ins' : Nat → InputLine) (s s' : State) (r r' : Ref),
    PlainRun ins s r → PlainRun ins' s' r' → TicksForever ins → TicksForever ins' → s'.params = s.params →
    s'.mem.sound r' = [(s.mem.sound r).flatten] →
    startResult s.params (s.mem.sound r) = (.loading, .none) →
    startResult s.params [(s.mem.sound r).flatten] = (.loading, .none) →
    ∃ n n' t t', RunEndsAt ins s n ∧ RunEndsAt ins' s' n' ∧ drive ins n s = .next t ∧ drive ins' n' s' = .next t'
      ∧ dispatched ins s n = dispatched ins' s' n' ∧ t.regs.st = t'.regs.st ∧ t.regs.reason = t'.regs.reason

/-- 41_frame_sequencer.md R111: once a CANCEL is accepted, neither its cycle nor any later one of the run dispatches. -/
def Obligations.NoDispatchAfterCancel : Prop :=
  ∀ (ins : Nat → InputLine) (s : State) (n : Nat),
    s.regs.st = .idle ∨ s.regs.st = .loading ∨ s.regs.st = .playing →
    (ins 0).isReset = false → (ins 0).isCancel = true →
    (∀ k t, 1 ≤ k → k < n → drive ins k s = .next t → startsRun (ins k) t = false) →
    dispatched ins s n = []

/-- 41_frame_sequencer.md R111, R105: a CANCEL accepted in Playing lets the wait run its whole length, counted in ticks
from the CANCEL's own cycle on, and then the state is Cancelled. -/
def Obligations.CancelledWaitRunsToItsEnd : Prop :=
  ∀ (ins : Nat → InputLine) (s : State) (n : Nat), Inv s → s.regs.st = .playing → (ins 0).isCancel = true →
    (∀ k, k < n → (ins k).isReset = false ∧ (ins k).isStart = false) → 1 ≤ n →
    ∃ t, drive ins n s = .next t ∧ t.regs.cp = true
      ∧ (ticksFrom ins 0 n < s.regs.cnt.toNat →
          t.regs.st = .playing ∧ t.regs.cnt.toNat = s.regs.cnt.toNat - ticksFrom ins 0 n)
      ∧ (s.regs.cnt.toNat ≤ ticksFrom ins 0 n → t.regs.st = .cancelled)

/-- 41_frame_sequencer.md R114: a frame dispatched in cycle 0 is applied until the cycle of the `2^fd`-th tick strictly
after it; then the sequencer leaves Playing, to Loading or, where a CANCEL came, to Cancelled. -/
def Obligations.WaitLastsTwoToTheFdTicks : Prop :=
  ∀ (ins : Nat → InputLine) (s : State) (f : SoundFrame) (n : Nat), Inv s → dispatchAt ins s 0 = some f →
    (∀ k, 1 ≤ k → k ≤ n → (ins k).isReset = false) →
    (ticksFrom ins 1 n < 2 ^ f.fd.toNat →
        ∃ t, drive ins (n + 1) s = .next t ∧ t.regs.st = .playing
          ∧ t.regs.cnt.toNat = 2 ^ f.fd.toNat - ticksFrom ins 1 n ∧ (1 ≤ n → t.port = none))
      ∧ (ticksFrom ins 1 n = 2 ^ f.fd.toNat → (ins n).isTick = true →
          ∃ t, drive ins (n + 1) s = .next t ∧ t.port = none ∧ t.regs.cnt = 0#4
            ∧ ((∃ k, 1 ≤ k ∧ k ≤ n ∧ (ins k).isCancel = true) → t.regs.st = .cancelled)
            ∧ ((∀ k, 1 ≤ k → k ≤ n → (ins k).isCancel = false) → t.regs.st = .loading))

/-- 41_frame_sequencer.md R112: the bound on a run, in cycles, and the exact number of ticks counted in Playing. -/
def Obligations.RunLengthIsBounded : Prop :=
  ∀ (ins : Nat → InputLine) (s : State) (r : Ref) (S : NamedSound) (n : Nat),
    PlainRun ins s r → S = s.mem.sound r → startResult s.params S = (.loading, .none) → RunEndsAt ins s n →
    n ≤ 1 + (playedWords s.params S).length + (S.length - 1) + 1 + (playingCycles ins s n).length
      ∧ ((playingCycles ins s n).countP fun k => (ins k).isTick)
          = ((playedWords s.params S).map fun w => 2 ^ (decodeWord w).fd.toNat).sum

/-- 70_reset_and_hazards.md R151, R152: with ticks every `Q >= 2 + Cmax` cycles, the frame after one dispatched in cycle 0
is dispatched exactly `2^fd` tick periods later, between 1 and `1 + Cmax` cycles after the tick. -/
def Obligations.CadenceIsExact : Prop :=
  ∀ (ins : Nat → InputLine) (s : State) (S : NamedSound) (f g : SoundFrame) (Q a n : Nat),
    Inv s → LatchedSoundAccepted s → s.sound? = some S → TicksEvery Q a ins → 2 + maxCrossings S ≤ Q →
    SameRun ins s (n + 1) → (∀ k, 1 ≤ k → k ≤ n → (ins k).isCancel = false) →
    dispatchAt ins s 0 = some f → 1 ≤ n → dispatchAt ins s n = some g →
    (∀ k, 1 ≤ k → k < n → dispatchAt ins s k = none) →
    (n + a) / Q = a / Q + 2 ^ f.fd.toNat ∧ 1 ≤ (n + a) % Q ∧ (n + a) % Q ≤ 1 + maxCrossings S
end

