-- ==== Sys2Proof/Laws/Memory.lean ====
section
/-!
SUPPORT. Storage: the canonical form and the one operation that makes a memory, placing a sound; reading a word.
-/

namespace Sys2Proof.Machine

/-- The empty memory is in canonical form. -/
@[simp] theorem Memory.wf_nil : Memory.wf [] = true := rfl

/-- Canonical form, one entry at a time. -/
theorem Memory.wf_cons (r : Ref) (S : NamedSound) (m : Memory) :
    Memory.wf ((r, S) :: m) = true ↔ (∀ e ∈ m.head?, r < e.1) ∧ Memory.wf m = true := by
  cases m with
  | nil => simp [Memory.wf]
  | cons e rest => simp [Memory.wf]

/-- The first reference of a memory after placing a sound is the placed one or the old first. -/
theorem Memory.place_head (m : Memory) (r : Ref) (S : NamedSound) :
    ∀ e ∈ (m.place r S).head?, e.1 = r ∨ ∃ e' ∈ m.head?, e.1 = e'.1 := by
  cases m with
  | nil => simp [Memory.place]
  | cons e rest =>
    simp only [Memory.place]
    split
    · simp
    · split <;> simp_all

/-- Placing a sound keeps the canonical form. -/
theorem Memory.place_wf (m : Memory) (r : Ref) (S : NamedSound) (h : m.wf = true) : (m.place r S).wf = true := by
  induction m with
  | nil => rfl
  | cons e rest ih =>
    obtain ⟨q, T⟩ := e
    have hrest := (Memory.wf_cons q T rest).1 h
    simp only [Memory.place]
    split
    · rename_i hlt
      exact (Memory.wf_cons _ _ _).2 ⟨by simpa using hlt, h⟩
    · split
      · rename_i heq
        subst heq
        exact (Memory.wf_cons _ _ _).2 hrest
      · rename_i hlt hne
        refine (Memory.wf_cons _ _ _).2 ⟨fun e he => ?_, ih hrest.2⟩
        rcases Memory.place_head rest r S e he with h1 | ⟨e', he', h1⟩
        · exact h1 ▸ lt_of_le_of_ne (Nat.le_of_not_lt hlt) (Ne.symm hne)
        · exact h1 ▸ hrest.1 e' he'

/-- A placed sound is found under its reference. -/
@[simp] theorem Memory.find_place_same (m : Memory) (r : Ref) (S : NamedSound) :
    (m.place r S).find? r = some S := by
  induction m with
  | nil => simp [Memory.place, Memory.find?]
  | cons e rest ih =>
    obtain ⟨q, T⟩ := e
    simp only [Memory.place]
    split
    · simp [Memory.find?]
    · split
      · simp [Memory.find?]
      · rename_i hne
        simp [Memory.find?, Ne.symm hne, ih]

/-- Placing a sound leaves every other reference alone. -/
theorem Memory.find_place_other (m : Memory) (r q : Ref) (S : NamedSound) (h : q ≠ r) :
    (m.place r S).find? q = m.find? q := by
  induction m with
  | nil => simp [Memory.place, Memory.find?, Ne.symm h]
  | cons e rest ih =>
    obtain ⟨k, T⟩ := e
    simp only [Memory.place]
    split
    · simp [Memory.find?, Ne.symm h]
    · split
      · rename_i heq
        simp [Memory.find?, Ne.symm h, heq ▸ Ne.symm h]
      · simp [Memory.find?, ih]

/-- The sound of a reference just placed. -/
@[simp] theorem Memory.sound_place_same (m : Memory) (r : Ref) (S : NamedSound) : (m.place r S).sound r = S := by
  simp [Memory.sound]

/-- A reference that is listed is not below the first one. -/
theorem Memory.find_below_head (m : Memory) (r : Ref) (hm : m.wf = true) (h : ∀ e ∈ m.head?, r < e.1) :
    m.find? r = none := by
  induction m with
  | nil => rfl
  | cons e rest ih =>
    obtain ⟨q, T⟩ := e
    have hq : r < q := h (q, T) rfl
    obtain ⟨hhead, hrest⟩ := (Memory.wf_cons q T rest).1 hm
    simp only [Memory.find?, if_neg (Nat.ne_of_gt hq)]
    exact ih hrest fun e he => lt_trans hq (hhead e he)

/-- Equal contents are equal lists: two memories in canonical form that list the same sounds are the same memory. -/
theorem Memory.ext_of_wf (m n : Memory) (hm : m.wf = true) (hn : n.wf = true) (h : ∀ r, m.find? r = n.find? r) :
    m = n := by
  induction m generalizing n with
  | nil =>
    cases n with
    | nil => rfl
    | cons e rest => simpa [Memory.find?] using h e.1
  | cons e rest ih =>
    obtain ⟨q, T⟩ := e
    obtain ⟨hq, hrest⟩ := (Memory.wf_cons q T rest).1 hm
    cases n with
    | nil => simpa [Memory.find?] using h q
    | cons e' rest' =>
      obtain ⟨q', T'⟩ := e'
      obtain ⟨hq', hrest'⟩ := (Memory.wf_cons q' T' rest').1 hn
      have hle : q' = q := by
        rcases lt_trichotomy q q' with hlt | heq | hgt
        · have := h q
          rw [Memory.find_below_head ((q', T') :: rest') q hn (by simpa using hlt)] at this
          simp [Memory.find?] at this
        · exact heq.symm
        · have := h q'
          rw [Memory.find_below_head ((q, T) :: rest) q' hm (by simpa using hgt)] at this
          simp [Memory.find?] at this
      subst hle
      have hT : T = T' := by simpa [Memory.find?] using h q'
      subst hT
      refine congrArg _ (ih rest' hrest hrest' fun r => ?_)
      by_cases hr : q' = r
      · subst hr
        rw [Memory.find_below_head rest q' hrest hq, Memory.find_below_head rest' q' hrest' hq']
      · simpa [Memory.find?, hr] using h r

/-- A word is read where four bytes are left, and is made of them (20_memory.md R33). -/
theorem readWord_of_le (buf : SoundBuffer) (o : Nat) (h : o + 4 ≤ buf.length) :
    ∃ b0 b1 b2 b3 rest,
      buf.drop o = b0 :: b1 :: b2 :: b3 :: rest ∧ readWord buf o = some (wordOfBytes b0 b1 b2 b3) := by
  have hlen : (buf.drop o).length = buf.length - o := List.length_drop
  unfold readWord
  match hd : buf.drop o with
  | [] | [_] | [_, _] | [_, _, _] =>
    rw [hd] at hlen
    simp at hlen
    omega
  | b0 :: b1 :: b2 :: b3 :: rest => exact ⟨b0, b1, b2, b3, rest, rfl, rfl⟩

/-- No word is read where fewer than four bytes are left. -/
theorem readWord_of_lt (buf : SoundBuffer) (o : Nat) (h : buf.length < o + 4) : readWord buf o = none := by
  have hlen : (buf.drop o).length = buf.length - o := List.length_drop
  unfold readWord
  split
  · rename_i hd
    rw [hd] at hlen
    simp at hlen
    omega
  · rfl

/-- A word is read exactly where a whole frame is left (41_frame_sequencer.md R98). -/
theorem readWord_isSome (buf : SoundBuffer) (o : Nat) : (readWord buf o).isSome = true ↔ o + 4 ≤ buf.length := by
  constructor
  · intro h
    by_contra hlt
    rw [readWord_of_lt buf o (by omega)] at h
    cases h
  · intro h
    obtain ⟨_, _, _, _, _, _, hr⟩ := readWord_of_le buf o h
    rw [hr]
    rfl

end Sys2Proof.Machine
end

