-- ==== Sys2Proof/Laws/State.lean ====
section
/-!
SUPPORT. One lemma per field of State for each named update, so that no later proof unfolds a record update.
-/

namespace Sys2Proof.Machine

/-! ### `State.withRegs` -/

@[simp] theorem State.withRegs_regs (s : State) (r : Regs) : (s.withRegs r).regs = r := rfl
@[simp] theorem State.withRegs_port (s : State) (r : Regs) : (s.withRegs r).port = s.port := rfl
@[simp] theorem State.withRegs_decoded (s : State) (r : Regs) : (s.withRegs r).decoded = s.decoded := rfl
@[simp] theorem State.withRegs_params (s : State) (r : Regs) : (s.withRegs r).params = s.params := rfl
@[simp] theorem State.withRegs_mem (s : State) (r : Regs) : (s.withRegs r).mem = s.mem := rfl
@[simp] theorem State.withRegs_script (s : State) (r : Regs) : (s.withRegs r).script = s.script := rfl
@[simp] theorem State.withRegs_cycle (s : State) (r : Regs) : (s.withRegs r).cycle = s.cycle := rfl

/-! ### `State.withDecoded` -/

@[simp] theorem State.withDecoded_regs (s : State) (f : SoundFrame) : (s.withDecoded f).regs = s.regs := rfl
@[simp] theorem State.withDecoded_port (s : State) (f : SoundFrame) : (s.withDecoded f).port = s.port := rfl
@[simp] theorem State.withDecoded_decoded (s : State) (f : SoundFrame) : (s.withDecoded f).decoded = some f := rfl
@[simp] theorem State.withDecoded_params (s : State) (f : SoundFrame) : (s.withDecoded f).params = s.params := rfl
@[simp] theorem State.withDecoded_mem (s : State) (f : SoundFrame) : (s.withDecoded f).mem = s.mem := rfl
@[simp] theorem State.withDecoded_script (s : State) (f : SoundFrame) : (s.withDecoded f).script = s.script := rfl
@[simp] theorem State.withDecoded_cycle (s : State) (f : SoundFrame) : (s.withDecoded f).cycle = s.cycle := rfl

/-! ### `State.withDispatch` -/

@[simp] theorem State.withDispatch_regs (s : State) (f : SoundFrame) : (s.withDispatch f).regs = s.regs := rfl
@[simp] theorem State.withDispatch_port (s : State) (f : SoundFrame) : (s.withDispatch f).port = some f := rfl
@[simp] theorem State.withDispatch_decoded (s : State) (f : SoundFrame) :
    (s.withDispatch f).decoded =
      s.decoded := rfl
@[simp] theorem State.withDispatch_params (s : State) (f : SoundFrame) : (s.withDispatch f).params = s.params := rfl
@[simp] theorem State.withDispatch_mem (s : State) (f : SoundFrame) : (s.withDispatch f).mem = s.mem := rfl
@[simp] theorem State.withDispatch_script (s : State) (f : SoundFrame) : (s.withDispatch f).script = s.script := rfl
@[simp] theorem State.withDispatch_cycle (s : State) (f : SoundFrame) : (s.withDispatch f).cycle = s.cycle := rfl

/-! ### `State.beginCycle` -/

@[simp] theorem State.beginCycle_regs (s : State) : (s.beginCycle).regs = s.regs := rfl
@[simp] theorem State.beginCycle_port (s : State) : (s.beginCycle).port = none := rfl
@[simp] theorem State.beginCycle_decoded (s : State) : (s.beginCycle).decoded = none := rfl
@[simp] theorem State.beginCycle_params (s : State) : (s.beginCycle).params = s.params := rfl
@[simp] theorem State.beginCycle_mem (s : State) : (s.beginCycle).mem = s.mem := rfl
@[simp] theorem State.beginCycle_script (s : State) : (s.beginCycle).script = s.script.tail := rfl
@[simp] theorem State.beginCycle_cycle (s : State) : (s.beginCycle).cycle = s.cycle + 1 := rfl

/-! ### `State.resetRegs` -/

@[simp] theorem State.resetRegs_regs (s : State) : (s.resetRegs).regs = Regs.reset := rfl
@[simp] theorem State.resetRegs_port (s : State) : (s.resetRegs).port = none := rfl
@[simp] theorem State.resetRegs_decoded (s : State) : (s.resetRegs).decoded = none := rfl
@[simp] theorem State.resetRegs_params (s : State) : (s.resetRegs).params = s.params := rfl
@[simp] theorem State.resetRegs_mem (s : State) : (s.resetRegs).mem = s.mem := rfl
@[simp] theorem State.resetRegs_script (s : State) : (s.resetRegs).script = s.script := rfl
@[simp] theorem State.resetRegs_cycle (s : State) : (s.resetRegs).cycle = s.cycle := rfl

/-! ### `State.driven` -/

@[simp] theorem State.driven_regs (s : State) (l : InputLine) : (s.driven l).regs = s.regs := rfl
@[simp] theorem State.driven_port (s : State) (l : InputLine) : (s.driven l).port = s.port := rfl
@[simp] theorem State.driven_decoded (s : State) (l : InputLine) : (s.driven l).decoded = s.decoded := rfl
@[simp] theorem State.driven_params (s : State) (l : InputLine) : (s.driven l).params = s.params := rfl
@[simp] theorem State.driven_mem (s : State) (l : InputLine) : (s.driven l).mem = s.mem := rfl
@[simp] theorem State.driven_script (s : State) (l : InputLine) : (s.driven l).script = [l] := rfl
@[simp] theorem State.driven_cycle (s : State) (l : InputLine) : (s.driven l).cycle = s.cycle := rfl

/-! ### `State.enterStopped` -/

@[simp] theorem State.enterStopped_regs (s : State) (w : Reason) :
    (s.enterStopped w).regs =
      { s.regs with st := .stopped, reason := w } := rfl
@[simp] theorem State.enterStopped_port (s : State) (w : Reason) : (s.enterStopped w).port = s.port := rfl
@[simp] theorem State.enterStopped_decoded (s : State) (w : Reason) : (s.enterStopped w).decoded = s.decoded := rfl
@[simp] theorem State.enterStopped_params (s : State) (w : Reason) : (s.enterStopped w).params = s.params := rfl
@[simp] theorem State.enterStopped_mem (s : State) (w : Reason) : (s.enterStopped w).mem = s.mem := rfl
@[simp] theorem State.enterStopped_script (s : State) (w : Reason) : (s.enterStopped w).script = s.script := rfl
@[simp] theorem State.enterStopped_cycle (s : State) (w : Reason) : (s.enterStopped w).cycle = s.cycle := rfl

/-! ### `State.enterCancelled` -/

@[simp] theorem State.enterCancelled_regs (s : State) :
    (s.enterCancelled).regs =
      { s.regs with st := .cancelled, cp := true } := rfl
@[simp] theorem State.enterCancelled_port (s : State) : (s.enterCancelled).port = s.port := rfl
@[simp] theorem State.enterCancelled_decoded (s : State) : (s.enterCancelled).decoded = s.decoded := rfl
@[simp] theorem State.enterCancelled_params (s : State) : (s.enterCancelled).params = s.params := rfl
@[simp] theorem State.enterCancelled_mem (s : State) : (s.enterCancelled).mem = s.mem := rfl
@[simp] theorem State.enterCancelled_script (s : State) : (s.enterCancelled).script = s.script := rfl
@[simp] theorem State.enterCancelled_cycle (s : State) : (s.enterCancelled).cycle = s.cycle := rfl

/-! ### `State.dispatchFrame` -/

@[simp] theorem State.dispatchFrame_regs (s : State) (f : SoundFrame) :
    (s.dispatchFrame f).regs =
      { s.regs with st := .playing, off := s.regs.off + 4, cnt := BitVec.ofNat 4 (durTicks f) } := rfl
@[simp] theorem State.dispatchFrame_port (s : State) (f : SoundFrame) : (s.dispatchFrame f).port = some f := rfl
@[simp] theorem State.dispatchFrame_decoded (s : State) (f : SoundFrame) :
    (s.dispatchFrame f).decoded =
      s.decoded := rfl
@[simp] theorem State.dispatchFrame_params (s : State) (f : SoundFrame) : (s.dispatchFrame f).params = s.params := rfl
@[simp] theorem State.dispatchFrame_mem (s : State) (f : SoundFrame) : (s.dispatchFrame f).mem = s.mem := rfl
@[simp] theorem State.dispatchFrame_script (s : State) (f : SoundFrame) : (s.dispatchFrame f).script = s.script := rfl
@[simp] theorem State.dispatchFrame_cycle (s : State) (f : SoundFrame) : (s.dispatchFrame f).cycle = s.cycle := rfl

/-! ### `State.cross` -/

@[simp] theorem State.cross_regs (s : State) : (s.cross).regs = { s.regs with bi := s.regs.bi + 1, off := 0 } := rfl
@[simp] theorem State.cross_port (s : State) : (s.cross).port = s.port := rfl
@[simp] theorem State.cross_decoded (s : State) : (s.cross).decoded = s.decoded := rfl
@[simp] theorem State.cross_params (s : State) : (s.cross).params = s.params := rfl
@[simp] theorem State.cross_mem (s : State) : (s.cross).mem = s.mem := rfl
@[simp] theorem State.cross_script (s : State) : (s.cross).script = s.script := rfl
@[simp] theorem State.cross_cycle (s : State) : (s.cross).cycle = s.cycle := rfl

/-! ### `State.waitTick` -/

@[simp] theorem State.waitTick_regs (s : State) :
    (s.waitTick).regs =
      { s.regs with cnt := s.regs.cnt - 1#4, st := if s.regs.cnt = 1#4 then waitEndState s.regs.cp else s.regs.st } := rfl
@[simp] theorem State.waitTick_port (s : State) : (s.waitTick).port = s.port := rfl
@[simp] theorem State.waitTick_decoded (s : State) : (s.waitTick).decoded = s.decoded := rfl
@[simp] theorem State.waitTick_params (s : State) : (s.waitTick).params = s.params := rfl
@[simp] theorem State.waitTick_mem (s : State) : (s.waitTick).mem = s.mem := rfl
@[simp] theorem State.waitTick_script (s : State) : (s.waitTick).script = s.script := rfl
@[simp] theorem State.waitTick_cycle (s : State) : (s.waitTick).cycle = s.cycle := rfl

/-! ### `State.doStart` -/

@[simp] theorem State.doStart_regs (s : State) (r : Ref) :
    (s.doStart r).regs =
      { st := (startResult s.params (s.mem.sound r)).1, snd := some r, bi := 0, off := 0, cnt := 0#4, cp := false, reason := (startResult s.params (s.mem.sound r)).2 } := rfl
@[simp] theorem State.doStart_port (s : State) (r : Ref) : (s.doStart r).port = s.port := rfl
@[simp] theorem State.doStart_decoded (s : State) (r : Ref) : (s.doStart r).decoded = s.decoded := rfl
@[simp] theorem State.doStart_params (s : State) (r : Ref) : (s.doStart r).params = s.params := rfl
@[simp] theorem State.doStart_mem (s : State) (r : Ref) : (s.doStart r).mem = s.mem := rfl
@[simp] theorem State.doStart_script (s : State) (r : Ref) : (s.doStart r).script = s.script := rfl
@[simp] theorem State.doStart_cycle (s : State) (r : Ref) : (s.doStart r).cycle = s.cycle := rfl

/-- A line that is driven is the line of the coming cycle. -/
@[simp] theorem State.driven_inputLine (s : State) (l : InputLine) : (s.driven l).inputLine = l := rfl

/-- Driving a line changes nothing that a cycle starts from, but the script. -/
theorem State.driven_beginCycle (s : State) (l l' : InputLine) :
    (s.driven l).beginCycle = (s.driven l').beginCycle := rfl

end Sys2Proof.Machine
end

