-- ==== Sys2Proof/Laws/Cycle.lean ====
section
/-!
SUPPORT. What a LOAD step finds, and what one cycle can do, said once: one lemma per state of the sequencer, each the
branch of 41_frame_sequencer.md R87 for that state.
-/

namespace Sys2Proof.Machine

/-! ### Answers -/

@[simp] theorem andThen_next (s : State) (k : State → Answer State) : andThen (.next s) k = k s := rfl
@[simp] theorem andThen_fault (f : Fault) (k : State → Answer State) : andThen (.fault f) k = .fault f := rfl
@[simp] theorem andThen_refused (r : Refusal) (k : State → Answer State) : andThen (.refused r) k = .refused r := rfl

/-- An answer is a next state exactly when its first part is and its second part is from there. -/
theorem andThen_eq_next {o : Answer State} {k : State → Answer State} {t : State} :
    andThen o k = .next t ↔ ∃ s, o = .next s ∧ k s = .next t := by
  cases o <;> simp [andThen]

/-! ### The LOAD operand -/

/-- Outside Loading there is no LOAD step. -/
theorem loadCase_notLoading {s : State} (h : s.regs.st ≠ .loading) : s.loadCase = .ok .notLoading := by
  simp [State.loadCase, h]

/-- In Loading with the cursor in a buffer, the LOAD case is the one of that buffer (41_frame_sequencer.md R98). -/
theorem loadCase_inBuffer {s : State} {S : NamedSound} {buf : SoundBuffer} (h : s.regs.st = .loading)
    (hS : s.sound? = some S) (hb : S[s.regs.bi]? = some buf) :
    s.loadCase = .ok (loadCaseIn s.params S.length s.regs.bi s.regs.off buf) := by
  simp [State.loadCase, h, hS, hb]

/-- A LOAD case that is no fault and not `notLoading` is that of the buffer at the cursor. -/
theorem loadCase_eq_ok {s : State} {c : LoadCase} (h : s.loadCase = .ok c) (hc : c ≠ .notLoading) :
    s.regs.st = .loading ∧ ∃ S buf, s.sound? = some S ∧ S[s.regs.bi]? = some buf
      ∧ c = loadCaseIn s.params S.length s.regs.bi s.regs.off buf := by
  simp only [State.loadCase] at h
  split at h
  · rename_i hst
    refine ⟨hst, ?_⟩
    split at h
    · cases h
    · rename_i S hS
      split at h
      · cases h
      · rename_i buf hb
        exact ⟨S, buf, hS, hb, (Except.ok.inj h).symm⟩
  · exact absurd (Except.ok.inj h).symm hc

/-- Where no whole frame is left: a crossing or the end. -/
theorem loadCaseIn_exhausted {p : Params} {n bi off : Nat} {buf : SoundBuffer} (h : buf.length < off + 4) :
    loadCaseIn p n bi off buf = if bi + 1 < n then .cross else .exhaust := by
  simp [loadCaseIn, readWord_of_lt buf off h]

/-- Where a word is read: a terminal frame or one to dispatch. -/
theorem loadCaseIn_read {p : Params} {n bi off : Nat} {buf : SoundBuffer} {w : Word32}
    (h : readWord buf off = some w) :
    loadCaseIn p n bi off buf = if isTerminal p w then .terminal w else .fetch w := by
  simp [loadCaseIn, h]

/-- The inversion of `loadCaseIn`. -/
theorem loadCaseIn_cases (p : Params) (n bi off : Nat) (buf : SoundBuffer) :
    (∃ w, readWord buf off = some w ∧ off + 4 ≤ buf.length
        ∧ ((isTerminal p w = true ∧ loadCaseIn p n bi off buf = .terminal w)
          ∨ (isTerminal p w = false ∧ loadCaseIn p n bi off buf = .fetch w)))
    ∨ (buf.length < off + 4
        ∧ ((bi + 1 < n ∧ loadCaseIn p n bi off buf = .cross)
          ∨ (n ≤ bi + 1 ∧ loadCaseIn p n bi off buf = .exhaust))) := by
  by_cases h : off + 4 ≤ buf.length
  · obtain ⟨b0, b1, b2, b3, rest, -, hr⟩ := readWord_of_le buf off h
    refine .inl ⟨_, hr, h, ?_⟩
    rw [loadCaseIn_read hr]
    cases isTerminal p (wordOfBytes b0 b1 b2 b3) <;> simp
  · refine .inr ⟨by omega, ?_⟩
    rw [loadCaseIn_exhausted (by omega)]
    by_cases hb : bi + 1 < n
    · simp [hb]
    · simp [hb, Nat.le_of_not_lt hb]

/-! ### Frames and LOAD rows -/

/-- A word that is not terminal, run in Loading, is dispatched, whatever its class (41_frame_sequencer.md R99, R115). -/
theorem runFrame_dispatch {s : State} {w : Word32} (h : s.regs.st = .loading) (hw : isTerminal s.params w = false) :
    runFrame w s = .next (s.dispatchFrame (decodeWord w)) := by
  unfold runFrame classOf
  simp only [hw, Bool.false_eq_true, if_false]
  by_cases hn : w.extractLsb' 0 5 = 0b10000#5
  · simp [hn, execFrameNoise, h]
  · simp [hn, execFrameVoiced, h]

/-- A terminal word, run in Loading, stops the sequencer (41_frame_sequencer.md R100). -/
theorem runFrame_stop {s : State} {w : Word32} (h : s.regs.st = .loading) (hw : isTerminal s.params w = true) :
    runFrame w s = .next (s.enterStopped .terminal) := by
  simp [runFrame, classOf, hw, execFrameTerminal, h]

/-- The state after a dispatch, decoder output included. -/
def State.fetched (s : State) (w : Word32) : State := (s.withDecoded (decodeWord w)).dispatchFrame (decodeWord w)

@[simp] theorem State.fetched_regs (s : State) (w : Word32) :
    (s.fetched w).regs =
      { s.regs with
        st := .playing, off := s.regs.off + 4, cnt := BitVec.ofNat 4 (durTicks (decodeWord w)) } := rfl
@[simp] theorem State.fetched_port (s : State) (w : Word32) : (s.fetched w).port = some (decodeWord w) := rfl
@[simp] theorem State.fetched_decoded (s : State) (w : Word32) : (s.fetched w).decoded = some (decodeWord w) := rfl
@[simp] theorem State.fetched_params (s : State) (w : Word32) : (s.fetched w).params = s.params := rfl
@[simp] theorem State.fetched_mem (s : State) (w : Word32) : (s.fetched w).mem = s.mem := rfl
@[simp] theorem State.fetched_script (s : State) (w : Word32) : (s.fetched w).script = s.script := rfl
@[simp] theorem State.fetched_cycle (s : State) (w : Word32) : (s.fetched w).cycle = s.cycle := rfl

/-- LOAD_FETCH on the case that selects it. -/
theorem execLoadFetch_fetch {s : State} {w : Word32} (h : s.loadCase = .ok (.fetch w)) :
    execLoadFetch s = .next (s.fetched w) := by
  obtain ⟨hst, S, buf, -, -, hc⟩ := loadCase_eq_ok h (by simp)
  have hw : isTerminal s.params w = false := by
    rcases loadCaseIn_cases s.params S.length s.regs.bi s.regs.off buf with
      ⟨v, -, -, ⟨ht, he⟩ | ⟨ht, he⟩⟩ | ⟨-, ⟨-, he⟩ | ⟨-, he⟩⟩ <;> rw [← hc] at he <;> cases he
    exact ht
  simp only [execLoadFetch, h, execDecode, andThen_next]
  exact runFrame_dispatch (s := s.withDecoded (decodeWord w)) hst hw

/-- LOAD_TERMINAL on the case that selects it. -/
theorem execLoadTerminal_terminal {s : State} {w : Word32} (h : s.loadCase = .ok (.terminal w)) :
    execLoadTerminal s = .next (s.enterStopped .terminal) := by
  obtain ⟨hst, S, buf, -, -, hc⟩ := loadCase_eq_ok h (by simp)
  have hw : isTerminal s.params w = true := by
    rcases loadCaseIn_cases s.params S.length s.regs.bi s.regs.off buf with
      ⟨v, -, -, ⟨ht, he⟩ | ⟨ht, he⟩⟩ | ⟨-, ⟨-, he⟩ | ⟨-, he⟩⟩ <;> rw [← hc] at he <;> cases he
    exact ht
  simp only [execLoadTerminal, h]
  exact runFrame_stop hst hw

/-- What the LOAD step of a cycle answers, by case (41_frame_sequencer.md R98). -/
def loadAnswer (s : State) : Answer State :=
  match s.loadCase with
  | .error f => .fault f
  | .ok .notLoading => .next s
  | .ok (.fetch w) => .next (s.fetched w)
  | .ok (.terminal _) => .next (s.enterStopped .terminal)
  | .ok .cross => .next s.cross
  | .ok .exhaust => .next (s.enterStopped .exhausted)

/-- The LOAD slot of a cycle whose command and tick changed nothing. -/
theorem runLoad_self (s : State) : runLoad false s s = loadAnswer s := by
  unfold runLoad loadAnswer
  rw [if_neg Bool.false_ne_true]
  by_cases hst : s.regs.st = .loading
  · match h : s.loadCase with
    | .error f => rfl
    | .ok .notLoading =>
      simp only [State.loadCase, hst] at h
      split at h
      · split at h
        · cases h
        · split at h
          · cases h
          · have h' := Except.ok.inj h
            rename_i S _ _ buf _
            rcases loadCaseIn_cases s.params S.length s.regs.bi s.regs.off buf with
              ⟨v, -, -, ⟨ht, he⟩ | ⟨ht, he⟩⟩ | ⟨-, ⟨-, he⟩ | ⟨-, he⟩⟩ <;> rw [he] at h' <;> cases h'
      · simp at *
    | .ok (.fetch w) =>
      simp only [hst, SeqState.code, LoadCase.cond, decodeInternal, runSlot]
      exact execLoadFetch_fetch h
    | .ok (.terminal w) =>
      simp only [hst, SeqState.code, LoadCase.cond, decodeInternal, runSlot]
      exact execLoadTerminal_terminal h
    | .ok .cross =>
      simp [hst, SeqState.code, LoadCase.cond, decodeInternal, runSlot, exec, execLoadCross, h]
    | .ok .exhaust =>
      simp [hst, SeqState.code, LoadCase.cond, decodeInternal, runSlot, exec, execLoadExhaust, h]
  · rw [loadCase_notLoading hst]
    simp only
    cases hs : s.regs.st <;> simp_all [SeqState.code, LoadCase.cond, decodeInternal, runSlot]

/-! ### Slots -/

/-- The command slot, in words of the line's predicates. -/
theorem decodeCmd_line (l : InputLine) :
    decodeCmd (hinCmd l.hin) l.sndIn =
      if l.isStart then .start l.sndIn
      else if l.isCancel then .cancel
      else if hinCmd l.hin = 0b00#2 then .nop else .rsvd := by
  unfold decodeCmd InputLine.isStart InputLine.isCancel cmdCancel
  have h : ∀ c : BitVec 2, c = 0b00#2 ∨ c = 0b01#2 ∨ c = 0b10#2 ∨ c = 0b11#2 := by decide
  rcases h (hinCmd l.hin) with h | h | h | h <;> simp [h]

/-- START and CANCEL are different commands (30_encoding.md R62). -/
theorem not_start_and_cancel (l : InputLine) : ¬(l.isStart = true ∧ l.isCancel = true) := by
  simp only [InputLine.isStart, InputLine.isCancel, beq_iff_eq]
  rintro ⟨h1, h2⟩
  rw [h1] at h2
  exact absurd h2 (by decide)

/-- The tick slot. -/
theorem runTick_line (l : InputLine) (s : State) :
    runSlot (decodeTick (hinTick l.hin)) s =
      .next (if l.isTick = true ∧ s.regs.st = .playing then s.waitTick else s) := by
  unfold decodeTick InputLine.isTick
  by_cases ht : hinTick l.hin = 1#1 <;> by_cases hs : s.regs.st = .playing <;>
    simp [ht, hs, runSlot, exec, execTick, execWait]

/-! ### One cycle, by state -/

/-- 70_reset_and_hazards.md R146: a cycle with reset. -/
theorem runCycle_reset {l : InputLine} (h : l.isReset = true) (s : State) : runCycle l s = .next s.resetRegs := by
  have h' : l.rst = 1#1 := by simpa [InputLine.isReset] using h
  simp [runCycle, decodeRst, h', exec, execReset]

/-- A cycle without reset is its command, tick and LOAD slots. -/
theorem runCycle_inputs {l : InputLine} (h : l.isReset = false) (s : State) : runCycle l s = runInputs l s := by
  have h' : l.rst ≠ 1#1 := by simpa [InputLine.isReset] using h
  simp [runCycle, decodeRst, h']

/-- A LOAD slot outside Loading does nothing. -/
theorem runLoad_notLoading {s0 : State} (h : s0.regs.st ≠ .loading) (c : Bool) (s : State) :
    runLoad c s0 s = .next s := by
  unfold runLoad
  cases c
  · rw [if_neg Bool.false_ne_true, loadCase_notLoading h]
    cases hs : s0.regs.st <;> simp_all [SeqState.code, LoadCase.cond, decodeInternal, runSlot]
  · simp

/-- The command slot's answer. -/
def State.afterCommand (s : State) (l : InputLine) : State :=
  if l.isStart then (if s.regs.st.acceptsStart then s.doStart l.sndIn else s)
  else if l.isCancel then s.afterCancel
  else s

/-- Every command answers a next state. -/
theorem exec_command (l : InputLine) (s : State) :
    exec (decodeCmd (hinCmd l.hin) l.sndIn) s = .next (s.afterCommand l) := by
  rw [decodeCmd_line]
  unfold State.afterCommand
  by_cases h1 : l.isStart = true
  · simp [h1, exec, execStart]
  · by_cases h2 : l.isCancel = true
    · simp [h1, h2, exec, execCancel]
    · by_cases h3 : hinCmd l.hin = 0b00#2 <;> simp [h1, h2, h3, exec, execNop, execRsvd]

/-- Idle (41_frame_sequencer.md R87). -/
theorem runInputs_idle {s : State} (h : s.regs.st = .idle) (l : InputLine) :
    runInputs l s =
      .next (if l.isStart then s.doStart l.sndIn else if l.isCancel then s.enterCancelled else s) := by
  have hne : s.regs.st ≠ .loading := by simp [h]
  have hpl : (s.afterCommand l).regs.st ≠ .playing := by
    unfold State.afterCommand State.afterCancel
    simp only [h, SeqState.acceptsStart, if_true]
    split
    · simp only [State.doStart_regs, startResult]
      split
      · simp
      · split <;> simp
    · split <;> simp [h]
  simp only [runInputs, exec_command, andThen_next, runTick_line, hpl, and_false, if_false, runLoad_notLoading hne]
  simp [State.afterCommand, State.afterCancel, h, SeqState.acceptsStart]

/-- Stopped and Cancelled (41_frame_sequencer.md R87, R106). -/
theorem runInputs_ended {s : State} (h : s.regs.st = .stopped ∨ s.regs.st = .cancelled) (l : InputLine) :
    runInputs l s = .next (if l.isStart then s.doStart l.sndIn else s) := by
  have hne : s.regs.st ≠ .loading := by rcases h with h | h <;> simp [h]
  have hacc : s.regs.st.acceptsStart = true := by rcases h with h | h <;> simp [h, SeqState.acceptsStart]
  have hcan : s.afterCancel = s := by rcases h with h | h <;> simp [State.afterCancel, h]
  have hpl : (s.afterCommand l).regs.st ≠ .playing := by
    unfold State.afterCommand
    simp only [hacc, if_true, hcan, ite_self]
    split
    · simp only [State.doStart_regs, startResult]
      split
      · simp
      · split <;> simp
    · rcases h with h | h <;> simp [h]
  simp only [runInputs, exec_command, andThen_next, runTick_line, hpl, and_false, if_false, runLoad_notLoading hne]
  simp [State.afterCommand, hacc, hcan]

/-- Playing with `cp` updated by the cycle's command (41_frame_sequencer.md R87, R88). -/
def State.latchCancel (s : State) (l : InputLine) : State :=
  s.withRegs { s.regs with cp := s.regs.cp || l.isCancel }

@[simp] theorem State.latchCancel_regs (s : State) (l : InputLine) :
    (s.latchCancel l).regs = { s.regs with cp := s.regs.cp || l.isCancel } := rfl
@[simp] theorem State.latchCancel_port (s : State) (l : InputLine) : (s.latchCancel l).port = s.port := rfl
@[simp] theorem State.latchCancel_decoded (s : State) (l : InputLine) : (s.latchCancel l).decoded = s.decoded := rfl
@[simp] theorem State.latchCancel_params (s : State) (l : InputLine) : (s.latchCancel l).params = s.params := rfl
@[simp] theorem State.latchCancel_mem (s : State) (l : InputLine) : (s.latchCancel l).mem = s.mem := rfl
@[simp] theorem State.latchCancel_script (s : State) (l : InputLine) : (s.latchCancel l).script = s.script := rfl
@[simp] theorem State.latchCancel_cycle (s : State) (l : InputLine) : (s.latchCancel l).cycle = s.cycle := rfl

/-- Playing (41_frame_sequencer.md R87). -/
theorem runInputs_playing {s : State} (h : s.regs.st = .playing) (l : InputLine) :
    runInputs l s = .next (if l.isTick then (s.latchCancel l).waitTick else s.latchCancel l) := by
  have hne : s.regs.st ≠ .loading := by simp [h]
  have hcmd : s.afterCommand l = s.latchCancel l := by
    unfold State.afterCommand State.afterCancel State.latchCancel
    have hx := not_start_and_cancel l
    by_cases h1 : l.isStart = true
    · have h2 : l.isCancel = false := by
        cases hc : l.isCancel
        · rfl
        · exact absurd ⟨h1, hc⟩ hx
      simp only [h1, if_true, h2, Bool.or_false]
      rw [if_neg (by simp [h, SeqState.acceptsStart])]
      rfl
    · cases h2 : l.isCancel
      · simp [h1, State.withRegs]
      · simp [h1, h, State.withRegs]
  have hp : (s.latchCancel l).regs.st = .playing := h
  simp only [runInputs, exec_command, andThen_next, runTick_line, runLoad_notLoading hne, hcmd, hp, and_true]

/-- Loading with CANCEL (41_frame_sequencer.md R95): the LOAD step does not run. -/
theorem runInputs_loading_cancel {s : State} (h : s.regs.st = .loading) {l : InputLine} (hc : l.isCancel = true) :
    runInputs l s = .next s.enterCancelled := by
  have h1 : l.isStart = false := by
    cases hs : l.isStart
    · rfl
    · exact absurd ⟨hs, hc⟩ (not_start_and_cancel l)
  have hcmd : s.afterCommand l = s.enterCancelled := by simp [State.afterCommand, h1, hc, State.afterCancel, h]
  have hcan : (hinCmd l.hin == cmdCancel) = true := hc
  simp [runInputs, exec_command, andThen_next, runTick_line, hcmd, runLoad, hcan]

/-- Loading without CANCEL: the LOAD step (41_frame_sequencer.md R87, R97). -/
theorem runInputs_loading {s : State} (h : s.regs.st = .loading) {l : InputLine} (hc : l.isCancel = false) :
    runInputs l s = loadAnswer s := by
  have hcmd : s.afterCommand l = s := by simp [State.afterCommand, hc, h, SeqState.acceptsStart]
  have hcan : (hinCmd l.hin == cmdCancel) = false := hc
  simp [runInputs, exec_command, andThen_next, runTick_line, hcmd, h, hcan, runLoad_self]

/-- A step on a driven state is a cycle with the driven line. -/
theorem step_driven (s : State) (l : InputLine) : step (s.driven l) = runCycle l (s.driven l).beginCycle := rfl

/-- A LOAD step that answers a next state. -/
theorem loadAnswer_next {s t : State} (h : loadAnswer s = .next t) (hst : s.regs.st = .loading) :
    ∃ S buf, s.sound? = some S ∧ S[s.regs.bi]? = some buf ∧
      ((∃ w, readWord buf s.regs.off = some w ∧ isTerminal s.params w = false ∧ t = s.fetched w)
        ∨ (∃ w, readWord buf s.regs.off = some w ∧ isTerminal s.params w = true ∧ t = s.enterStopped .terminal)
        ∨ (buf.length < s.regs.off + 4 ∧ s.regs.bi + 1 < S.length ∧ t = s.cross)
        ∨ (buf.length < s.regs.off + 4 ∧ S.length ≤ s.regs.bi + 1 ∧ t = s.enterStopped .exhausted)) := by
  cases hS : s.sound? with
  | none => simp [loadAnswer, State.loadCase, hst, hS] at h
  | some S =>
    cases hb : S[s.regs.bi]? with
    | none => simp [loadAnswer, State.loadCase, hst, hS, hb] at h
    | some buf =>
      refine ⟨S, buf, rfl, hb, ?_⟩
      unfold loadAnswer at h
      rw [loadCase_inBuffer hst hS hb] at h
      rcases loadCaseIn_cases s.params S.length s.regs.bi s.regs.off buf with
        ⟨w, hr, -, ⟨ht, he⟩ | ⟨ht, he⟩⟩ | ⟨hlt, ⟨hb2, he⟩ | ⟨hb2, he⟩⟩ <;> rw [he] at h <;> simp at h
      · exact .inr (.inl ⟨w, hr, ht, h.symm⟩)
      · exact .inl ⟨w, hr, ht, h.symm⟩
      · exact .inr (.inr (.inl ⟨hlt, hb2, h.symm⟩))
      · exact .inr (.inr (.inr ⟨hlt, hb2, h.symm⟩))

/-- With the cursor in a buffer, the LOAD step answers a next state. -/
theorem loadAnswer_isNext {s : State} {S : NamedSound} {buf : SoundBuffer} (hst : s.regs.st = .loading)
    (hS : s.sound? = some S) (hb : S[s.regs.bi]? = some buf) : ∃ t, loadAnswer s = .next t := by
  unfold loadAnswer
  rw [loadCase_inBuffer hst hS hb]
  rcases loadCaseIn_cases s.params S.length s.regs.bi s.regs.off buf with
    ⟨w, -, -, ⟨-, he⟩ | ⟨-, he⟩⟩ | ⟨-, ⟨-, he⟩ | ⟨-, he⟩⟩ <;> rw [he] <;> exact ⟨_, rfl⟩

end Sys2Proof.Machine
end

