-- ==== Sys2Proof/Laws/Decode.lean ====
section
/-!
SUPPORT. Concatenation and field extraction as arithmetic, so that facts about layouts close by omega; the PI code.
-/

namespace Sys2Proof

/-- `cat(a, b)` as a number (00_scope.md R8). -/
theorem toNat_append_add {m n : Nat} (x : BitVec m) (y : BitVec n) :
    (x ++ y).toNat = x.toNat * 2 ^ n + y.toNat := by
  rw [BitVec.toNat_append, ← Nat.shiftLeft_add_eq_or_of_lt y.isLt, Nat.shiftLeft_eq]

/-- `w[lo+n-1:lo]` as a number (00_scope.md R8). -/
theorem toNat_extract {m : Nat} (x : BitVec m) (lo n : Nat) :
    (x.extractLsb' lo n).toNat = x.toNat / 2 ^ lo % 2 ^ n := by
  rw [BitVec.extractLsb'_toNat, Nat.shiftRight_eq_div_pow]

/-- Two neighbouring fields of a word are one field. -/
theorem extract_append_extract {v : Nat} (x : BitVec v) (lo n m k : Nat) (h : k = lo + n) :
    x.extractLsb' k m ++ x.extractLsb' lo n = x.extractLsb' lo (m + n) := by
  subst h
  exact BitVec.extractLsb'_append_extractLsb'_eq_extractLsb' rfl

/-- `decodePI` and `encodePI` are inverse on codes (40_frame_decoder.md R73). -/
theorem encodePI_decodePI (p : BitVec 5) : encodePI (decodePI p) = p := by
  unfold decodePI
  split
  · rename_i h
    exact h.symm
  · exact BitVec.ofInt_toInt

/-- The code of a pitch increment is not the noise sentinel, and its value is the increment. -/
theorem encodePI_pitch (d : PitchDelta) :
    encodePI (.pitch d) ≠ 0b10000#5 ∧ (encodePI (.pitch d)).toInt = d.val := by
  obtain ⟨d, h1, h2⟩ := d
  have key : (BitVec.ofInt 5 d).toInt = d := by
    rw [BitVec.toInt_ofInt]
    exact Int.bmod_eq_of_le (by omega) (by omega)
  refine ⟨fun h => ?_, key⟩
  have h16 : (0b10000#5).toInt = -16 := by decide
  rw [encodePI] at h
  rw [h, h16] at key
  omega

/-- `encodePI` and `decodePI` are inverse on PI values (40_frame_decoder.md R73). -/
theorem decodePI_encodePI (x : PitchOrNoise) : decodePI (encodePI x) = x := by
  cases x with
  | noise => rfl
  | pitch d =>
    obtain ⟨hne, hval⟩ := encodePI_pitch d
    unfold decodePI
    rw [dif_neg hne]
    exact congrArg PitchOrNoise.pitch (Subtype.ext hval)

end Sys2Proof
end

