-- ==== Sys2Proof/Laws/Exec.lean ====
section
/-!
SUPPORT. What START's checks come to, and everything one instruction can do to the state, said once (an inversion lemma
of exec), which the frame claims cite.
-/

namespace Sys2Proof.Machine

/-! ### START's checks -/

/-- The condition of TRUNCATED as `startResult` computes it (41_frame_sequencer.md R93). -/
theorem rejectsAsTruncated_iff (p : Params) (S : NamedSound) :
    RejectsAsTruncated p S ↔ (hasTruncated S || widthOverflow p S) = true := by
  simp only [RejectsAsTruncated, hasTruncated, widthOverflow, Bool.or_eq_true, List.any_eq_true, Option.any_eq_true,
    decide_eq_true_eq, bne_iff_ne]

/-- The condition of EMPTY as `startResult` computes it (41_frame_sequencer.md R93). -/
theorem rejectsAsEmpty_iff (S : NamedSound) : RejectsAsEmpty S ↔ isEmptySound S = true := by
  unfold RejectsAsEmpty
  cases S <;> simp [isEmptySound]

/-- `startResult` is the outcome of 41_frame_sequencer.md R93. -/
theorem startOutcome_startResult (p : Params) (S : NamedSound) :
    StartOutcome p S (startResult p S).1 (startResult p S).2 := by
  unfold StartOutcome startResult
  rw [rejectsAsTruncated_iff, rejectsAsEmpty_iff]
  by_cases h1 : (hasTruncated S || widthOverflow p S) = true <;> by_cases h2 : isEmptySound S = true <;>
    simp_all

/-- The three outcomes of START; where it accepts, buffer 0 is not empty. -/
theorem startResult_cases (p : Params) (S : NamedSound) :
    startResult p S = (.stopped, .truncated) ∨ startResult p S = (.stopped, .empty)
      ∨ (startResult p S = (.loading, .none) ∧ ∃ b rest, S = b :: rest ∧ b ≠ []) := by
  unfold startResult
  split
  · simp
  · split
    · simp
    · rename_i h
      refine .inr (.inr ⟨rfl, ?_⟩)
      cases S with
      | nil => simp [isEmptySound] at h
      | cons b rest => exact ⟨b, rest, rfl, by simpa [isEmptySound] using h⟩

/-! ### One instruction -/

/-- What a frame's meaning can do. -/
theorem runFrame_cases {w : Word32} {s t : State} (h : runFrame w s = .next t) :
    t = s ∨ (s.regs.st = .loading ∧ (t = s.enterStopped .terminal ∨ t = s.dispatchFrame (decodeWord w))) := by
  unfold runFrame at h
  split at h <;> simp only [execFrameTerminal, execFrameNoise, execFrameVoiced, Host.Outcome.next.injEq] at h <;>
    subst h <;> split <;> simp_all

/-- Everything an instruction can do when it answers a next state. -/
theorem exec_cases {i : Instr} {s t : State} (h : exec i s = .next t) :
    t = s
      ∨ (∃ w, i = .decode w ∧ t = s.withDecoded (decodeWord w))
      ∨ (∃ r, i = .start r ∧ t = s.doStart r)
      ∨ (i = .cancel ∧ (t = s.enterCancelled ∨ t = s.withRegs { s.regs with cp := true }))
      ∨ (i = .reset ∧ t = s.resetRegs)
      ∨ ((i = .tick ∨ i = .wait) ∧ s.regs.st = .playing ∧ t = s.waitTick)
      ∨ (i = .loadCross ∧ s.regs.st = .loading ∧ t = s.cross)
      ∨ (s.regs.st = .loading
          ∧ ((((∃ f, i = .frameTerminal f) ∨ i = .loadTerminal) ∧ t = s.enterStopped .terminal)
            ∨ (i = .loadExhaust ∧ t = s.enterStopped .exhausted)))
      ∨ (s.regs.st = .loading
          ∧ (((∃ f, i = .frameNoise f ∨ i = .frameVoiced f) ∧ ∃ f, t = s.dispatchFrame f)
            ∨ (i = .loadFetch ∧ ∃ w, t = s.fetched w))) := by
  cases i with
  | frameTerminal f =>
    simp only [exec, execFrameTerminal, Host.Outcome.next.injEq] at h
    subst h
    split
    · rename_i hst
      exact .inr (.inr (.inr (.inr (.inr (.inr (.inr (.inl ⟨hst, .inl ⟨.inl ⟨f, rfl⟩, rfl⟩⟩)))))))
    · simp
  | frameNoise f =>
    simp only [exec, execFrameNoise, Host.Outcome.next.injEq] at h
    subst h
    split
    · rename_i hst
      exact .inr (.inr (.inr (.inr (.inr (.inr (.inr (.inr ⟨hst, .inl ⟨⟨f, .inl rfl⟩, f, rfl⟩⟩)))))))
    · simp
  | frameVoiced f =>
    simp only [exec, execFrameVoiced, Host.Outcome.next.injEq] at h
    subst h
    split
    · rename_i hst
      exact .inr (.inr (.inr (.inr (.inr (.inr (.inr (.inr ⟨hst, .inl ⟨⟨f, .inr rfl⟩, f, rfl⟩⟩)))))))
    · simp
  | decode w =>
    simp only [exec, execDecode, Host.Outcome.next.injEq] at h
    simp [← h]
  | nop =>
    simp only [exec, execNop, Host.Outcome.next.injEq] at h
    simp [← h]
  | rsvd =>
    simp only [exec, execRsvd, Host.Outcome.next.injEq] at h
    simp [← h]
  | start r =>
    simp only [exec, execStart, Host.Outcome.next.injEq] at h
    subst h
    split <;> simp
  | cancel =>
    simp only [exec, execCancel, State.afterCancel, Host.Outcome.next.injEq] at h
    subst h
    split <;> simp
  | tick =>
    simp only [exec, execTick, execWait] at h
    split at h <;> simp only [Host.Outcome.next.injEq] at h <;> subst h <;> simp_all
  | reset =>
    simp only [exec, execReset, Host.Outcome.next.injEq] at h
    simp [← h]
  | wait =>
    simp only [exec, execWait, Host.Outcome.next.injEq] at h
    subst h
    split <;> simp_all
  | loadFetch =>
    cases hc : s.loadCase with
    | error f => simp [exec, execLoadFetch, hc] at h
    | ok c =>
      cases c with
      | fetch w =>
        rw [exec, execLoadFetch_fetch hc] at h
        exact .inr (.inr (.inr (.inr (.inr (.inr (.inr (.inr
          ⟨(loadCase_eq_ok hc (by simp)).1, .inr ⟨rfl, w, (Host.Outcome.next.inj h).symm⟩⟩)))))))
      | _ =>
        simp only [exec, execLoadFetch, hc, Host.Outcome.next.injEq] at h
        simp [h]
  | loadTerminal =>
    cases hc : s.loadCase with
    | error f => simp [exec, execLoadTerminal, hc] at h
    | ok c =>
      cases c with
      | terminal w =>
        rw [exec, execLoadTerminal_terminal hc] at h
        exact .inr (.inr (.inr (.inr (.inr (.inr (.inr (.inl
          ⟨(loadCase_eq_ok hc (by simp)).1, .inl ⟨.inr rfl, (Host.Outcome.next.inj h).symm⟩⟩)))))))
      | _ =>
        simp only [exec, execLoadTerminal, hc, Host.Outcome.next.injEq] at h
        simp [h]
  | loadCross =>
    cases hc : s.loadCase with
    | error f => simp [exec, execLoadCross, hc] at h
    | ok c =>
      cases c with
      | cross =>
        simp only [exec, execLoadCross, hc, Host.Outcome.next.injEq] at h
        exact .inr (.inr (.inr (.inr (.inr (.inr (.inl ⟨rfl, (loadCase_eq_ok hc (by simp)).1, h.symm⟩))))))
      | _ =>
        simp only [exec, execLoadCross, hc, Host.Outcome.next.injEq] at h
        simp [h]
  | loadExhaust =>
    cases hc : s.loadCase with
    | error f => simp [exec, execLoadExhaust, hc] at h
    | ok c =>
      cases c with
      | exhaust =>
        simp only [exec, execLoadExhaust, hc, Host.Outcome.next.injEq] at h
        exact .inr (.inr (.inr (.inr (.inr (.inr (.inr (.inl
          ⟨(loadCase_eq_ok hc (by simp)).1, .inr ⟨rfl, h.symm⟩⟩)))))))
      | _ =>
        simp only [exec, execLoadExhaust, hc, Host.Outcome.next.injEq] at h
        simp [h]

end Sys2Proof.Machine
end

