-- ==== Sys2Proof/Laws/Run.lean ====
section
/-!
SUPPORT. Runs: one cycle more, runs joined end to end, the dispatches and the ticks counted one cycle at a time, and one
cycle of a wait.
-/

namespace Sys2Proof.Machine

/-- A run one cycle longer. -/
theorem drive_succ_of {ins : Nat → InputLine} {n : Nat} {s t : State} (h : drive ins n s = .next t) :
    drive ins (n + 1) s = step (t.driven (ins n)) := by
  show andThen (drive ins n s) (fun t => step (t.driven (ins n))) = _
  rw [h]
  rfl

/-- A run is its first part and then its second. -/
theorem drive_add (ins : Nat → InputLine) (a n : Nat) (s : State) :
    drive ins (a + n) s = andThen (drive ins a s) (drive (fun k => ins (a + k)) n) := by
  induction n with
  | zero =>
    simp only [Nat.add_zero, drive]
    cases drive ins a s <;> rfl
  | succ n ih =>
    show andThen (drive ins (a + n) s) _ = _
    rw [ih]
    cases drive ins a s <;> rfl

/-- The second part of a run, from the state after the first. -/
theorem drive_add_of {ins : Nat → InputLine} {a : Nat} {s t : State} (h : drive ins a s = .next t) (n : Nat) :
    drive ins (a + n) s = drive (fun k => ins (a + k)) n t := by
  rw [drive_add, h]
  rfl

/-- What a cycle dispatches stands on the port after it. -/
theorem dispatchAt_of {ins : Nat → InputLine} {s t : State} {n : Nat} (h : drive ins (n + 1) s = .next t) :
    dispatchAt ins s n = t.port := by
  rw [dispatchAt, h]

/-- The dispatches of a run one cycle longer. -/
theorem dispatched_succ (ins : Nat → InputLine) (s : State) (n : Nat) :
    dispatched ins s (n + 1) = dispatched ins s n ++ (dispatchAt ins s n).toList := by
  simp only [dispatched, List.range_succ, List.filterMap_append]
  congr 1

/-- The ticks of one cycle more. -/
theorem ticksFrom_succ (ins : Nat → InputLine) (a n : Nat) :
    ticksFrom ins a (n + 1) = ticksFrom ins a n + if (ins (a + n)).isTick then 1 else 0 := by
  simp [ticksFrom, List.range_succ, List.countP_append, List.countP_cons]

/-- One cycle in Playing (41_frame_sequencer.md R87, R104). -/
theorem step_playing {s : State} {l : InputLine} (hp : s.regs.st = .playing) (hr : l.isReset = false) :
    step (s.driven l) =
      .next (if l.isTick then ((s.driven l).beginCycle.latchCancel l).waitTick
        else (s.driven l).beginCycle.latchCancel l) := by
  rw [step_driven, runCycle_inputs hr, runInputs_playing (s := (s.driven l).beginCycle) hp]

/-! ### A wait -/

/-- Was CANCEL driven in one of the first `n` cycles? -/
def cancelSeen (ins : Nat → InputLine) (n : Nat) : Bool := (List.range n).any fun k => (ins k).isCancel

theorem cancelSeen_succ (ins : Nat → InputLine) (n : Nat) :
    cancelSeen ins (n + 1) = (cancelSeen ins n || (ins n).isCancel) := by
  simp [cancelSeen, List.range_succ, List.any_append]

theorem cancelSeen_iff (ins : Nat → InputLine) (n : Nat) :
    cancelSeen ins n = true ↔ ∃ k, k < n ∧ (ins k).isCancel = true := by
  simp [cancelSeen]

/-- The ticks of a later stretch of a run, counted from its first cycle. -/
theorem ticksFrom_shift (ins : Nat → InputLine) (a n : Nat) :
    ticksFrom (fun k => ins (a + k)) 0 n = ticksFrom ins a n := by
  simp [ticksFrom]

/-- A wait that has not ended: `cnt` has gone down by the ticks, `cp` holds every CANCEL, nothing else has changed
(41_frame_sequencer.md R104). -/
theorem wait_goes_on (ins : Nat → InputLine) (s : State) (hp : s.regs.st = .playing) (n : Nat)
    (hr : ∀ k, k < n → (ins k).isReset = false) (ht : ticksFrom ins 0 n < s.regs.cnt.toNat) :
    ∃ t, drive ins n s = .next t
      ∧ t.regs =
          { s.regs with
            cnt := s.regs.cnt - BitVec.ofNat 4 (ticksFrom ins 0 n), cp := s.regs.cp || cancelSeen ins n }
      ∧ t.mem = s.mem ∧ t.params = s.params ∧ (1 ≤ n → t.port = none) := by
  induction n with
  | zero => exact ⟨s, rfl, by simp [ticksFrom, cancelSeen], rfl, rfl, by simp⟩
  | succ n ih =>
    rw [ticksFrom_succ] at ht
    obtain ⟨t, h1, h2, h3, h4, -⟩ := ih (fun k hk => hr k (by omega)) (by omega)
    have htp : t.regs.st = .playing := by rw [h2]; exact hp
    refine ⟨_, (drive_succ_of h1).trans (step_playing htp (hr n (by omega))), ?_, ?_, ?_, ?_⟩
    · rw [ticksFrom_succ, cancelSeen_succ]
      simp only [Nat.zero_add] at ht ⊢
      cases hk : (ins n).isTick
      · simp [h2, hp, Bool.or_assoc]
      · simp only [hk, if_true] at ht
        have hl := s.regs.cnt.isLt
        have hne : ¬(s.regs.cnt - BitVec.ofNat 4 (ticksFrom ins 0 n) = 1#4) := by
          intro h
          have h := congrArg BitVec.toNat h
          rw [BitVec.toNat_sub] at h
          simp at h
          omega
        simp only [if_true, State.waitTick_regs, State.latchCancel_regs, State.beginCycle_regs, State.driven_regs, h2,
          hne, if_false, Bool.or_assoc, hp]
        congr 1
        apply BitVec.eq_of_toNat_eq
        simp [BitVec.toNat_sub]
        omega
    · split <;> simp [h3]
    · split <;> simp [h4]
    · intro
      split <;> simp

/-- The cycle that ends a wait (41_frame_sequencer.md R105). -/
theorem wait_ends (ins : Nat → InputLine) (s : State) (hp : s.regs.st = .playing) (n : Nat)
    (hr : ∀ k, k < n + 1 → (ins k).isReset = false) (ht : ticksFrom ins 0 n + 1 = s.regs.cnt.toNat)
    (hk : (ins n).isTick = true) :
    ∃ t, drive ins (n + 1) s = .next t
      ∧ t.regs =
          { s.regs with
            cnt := 0#4, cp := s.regs.cp || cancelSeen ins (n + 1)
            st := waitEndState (s.regs.cp || cancelSeen ins (n + 1)) }
      ∧ t.mem = s.mem ∧ t.params = s.params ∧ t.port = none := by
  obtain ⟨t, h1, h2, h3, h4, -⟩ := wait_goes_on ins s hp n (fun k hk => hr k (by omega)) (by omega)
  have htp : t.regs.st = .playing := by rw [h2]; exact hp
  refine ⟨_, (drive_succ_of h1).trans (step_playing htp (hr n (by omega))), ?_, ?_, ?_, ?_⟩
  · have hl := s.regs.cnt.isLt
    have he : s.regs.cnt - BitVec.ofNat 4 (ticksFrom ins 0 n) = 1#4 := by
      apply BitVec.eq_of_toNat_eq
      rw [BitVec.toNat_sub]
      simp
      omega
    rw [cancelSeen_succ]
    simp [hk, h2, he, Bool.or_assoc]
  · simp [hk, h3]
  · simp [hk, h4]
  · simp [hk]

end Sys2Proof.Machine
end

