-- ==== Sys2Proof/Tests/Slice0.lean ====
section
/-!
SUPPORT. Tests. Expected results are those of 95_test_vectors.md (the vector is named) or worked by hand from the rule
named. The last part gives, for each statement that has hypotheses, a concrete state and operands that meet them all.
-/

namespace Sys2Proof.Tests

open Sys2Proof Sys2Proof.Machine

/-! ### Helpers -/

/-- A frame record, PI as an increment. -/
def fr (bw1 bw2 bw3 bw4 : BitVec 2) (fm3 : BitVec 3) (fm2 fm1 : BitVec 5) (ampl : BitVec 4) (fd : BitVec 2)
    (pi : PitchOrNoise) : SoundFrame := ⟨bw1, bw2, bw3, bw4, fm3, fm2, fm1, ampl, fd, pi⟩

def pi0 : PitchOrNoise := .pitch ⟨0, by decide⟩

/-- decode(0x86B3CDA0), 95_test_vectors.md L1-1. -/
def fA : SoundFrame := fr 2 0 1 2 5 19 25 11 1 pi0
/-- decode(0x80000000). -/
def f8 : SoundFrame := fr 2 0 0 0 0 0 0 0 0 pi0
/-- decode(0x00000070). -/
def f70 : SoundFrame := fr 0 0 0 0 0 0 0 0 3 .noise
/-- decode(0x00000000). -/
def f0 : SoundFrame := fr 0 0 0 0 0 0 0 0 0 pi0
/-- decode(0x00000090). -/
def f90 : SoundFrame := fr 0 0 0 0 0 0 0 1 0 .noise

def w8 : SoundBuffer := [0x80, 0, 0, 0]
/-- The sounds of 95_test_vectors.md section 2.5: A, X, Z0, Z1, Z2, T1, T2 under the references 0 to 6, S2 of P2 under
7, and the one-buffer join of X under 8. -/
def sounds : Memory :=
  [(0, [[0x86, 0xB3, 0xCD, 0xA0, 0, 0, 0, 0]]), (1, [w8, [0, 0, 0, 0x70]]), (2, []), (3, [[]]), (4, [[], w8]),
    (5, [w8, [1, 2, 3]]), (6, [[], [1, 2]]), (7, [w8, [], [0, 0, 0, 0x90, 0, 0, 0, 0x3F]]),
    (8, [[0x80, 0, 0, 0, 0, 0, 0, 0x70]])]

/-- The machine after reset with the sounds in storage. -/
def idle : State := { State.reset with mem := sounds }
/-- A state of the table of 95_test_vectors.md section 2.5. -/
def at_ (st : SeqState) (snd : Ref) (bi off : Nat) (cnt : BitVec 4) (cp : Bool) (reason : Reason) : State :=
  { idle with regs := ⟨st, some snd, bi, off, cnt, cp, reason⟩ }
def load (snd : Ref) (bi off : Nat) : State := at_ .loading snd bi off 0 false .none
def play (snd : Ref) (bi off : Nat) (cnt : BitVec 4) (cp : Bool) : State := at_ .playing snd bi off cnt cp .none

/-- A line without reset. -/
def ln (h : BitVec 3) (snd : Ref := 0) : InputLine := ⟨0, h, snd⟩

/-- The registers and the dispatch port after a step or an instruction. -/
def seen : Answer State → Option (Regs × Option SoundFrame)
  | .next t => some (t.regs, t.port)
  | _ => none
def cyc (s : State) (l : InputLine) : Option (Regs × Option SoundFrame) := seen (step (s.driven l))
def regs (s : State) : Option (Regs × Option SoundFrame) := some (s.regs, none)

/-! ### WellFormed: one ill-formed term for each check -/

theorem test_wf_terminal_refused : WellFormed Params.default (.frameTerminal fA) = false := by decide
theorem test_wf_noise_terminal_refused :
    WellFormed Params.default (.frameNoise (fr 0 0 0 0 0 0 0 0 0 .noise)) = false := by decide
theorem test_wf_noise_pitch_refused : WellFormed Params.default (.frameNoise fA) = false := by decide
theorem test_wf_voiced_terminal_refused : WellFormed Params.default (.frameVoiced f0) = false := by decide
theorem test_wf_voiced_noise_refused : WellFormed Params.default (.frameVoiced f70) = false := by decide
/-- 30_encoding.md R55: with the exact-zero comparator 0x00000010 is NOISE (95_test_vectors.md section 2.4). -/
theorem test_wf_follows_comparator :
    WellFormed { Params.default with termMask := 0xFFFFFFFF#32 } (.frameNoise (fr 0 0 0 0 0 0 0 0 0 .noise)) = true := by
  decide
theorem test_params_wf :
    Params.default.wf = true ∧ { Params.default with termMatch := 1#32 }.wf = false
      ∧ { Params.default with biW := some 0 }.wf = false ∧ { Params.default with offW := some 8 }.wf = false
      ∧ { Params.default with bufLenMax := some 255 }.wf = false := by decide

/-! ### Decoding: words written out from the spec's encodings -/

/-- 95_test_vectors.md L1-1, bit by bit in the order of 30_encoding.md R47. -/
theorem test_decode_voiced :
    decode Params.default (.frame 0b10000110101100111100110110100000#32) = .ok (.frameVoiced fA) := by decide
/-- 95_test_vectors.md section 2.1: 0x12345678 and the field maxima. -/
theorem test_decode_voiced_fields :
    decode Params.default (.frame 0x12345678#32)
        = .ok (.frameVoiced (fr 0 1 0 2 1 20 10 12 3 (.pitch ⟨-8, by decide⟩)))
      ∧ decode Params.default (.frame 0xFFFFFFEF#32)
        = .ok (.frameVoiced (fr 3 3 3 3 7 31 31 15 3 (.pitch ⟨15, by decide⟩))) := by decide
/-- 95_test_vectors.md section 2.1: each field's lowest bit alone. -/
theorem test_decode_lowest_bits :
    decodeWord 0x40000000#32 = fr 1 0 0 0 0 0 0 0 0 pi0 ∧ decodeWord 0x10000000#32 = fr 0 1 0 0 0 0 0 0 0 pi0
      ∧ decodeWord 0x04000000#32 = fr 0 0 1 0 0 0 0 0 0 pi0 ∧ decodeWord 0x01000000#32 = fr 0 0 0 1 0 0 0 0 0 pi0
      ∧ decodeWord 0x00200000#32 = fr 0 0 0 0 1 0 0 0 0 pi0 ∧ decodeWord 0x00010000#32 = fr 0 0 0 0 0 1 0 0 0 pi0
      ∧ decodeWord 0x00000800#32 = fr 0 0 0 0 0 0 1 0 0 pi0 ∧ decodeWord 0x00000080#32 = fr 0 0 0 0 0 0 0 1 0 pi0
      ∧ decodeWord 0x00000020#32 = fr 0 0 0 0 0 0 0 0 1 pi0 := by decide
/-- 40_frame_decoder.md R78. -/
theorem test_decode_noise :
    decode Params.default (.frame 0b00000000000000000000000001110000#32) = .ok (.frameNoise f70)
      ∧ decode Params.default (.frame 0xFFFFFFF0#32) = .ok (.frameNoise (fr 3 3 3 3 7 31 31 15 3 .noise)) := by decide
/-- 40_frame_decoder.md R78: the terminal test precedes the noise test; the last terminal word and the next. -/
theorem test_decode_terminal :
    decode Params.default (.frame 0x00000000#32) = .ok (.frameTerminal f0)
      ∧ decode Params.default (.frame 0x00000010#32) = .ok (.frameTerminal (fr 0 0 0 0 0 0 0 0 0 .noise))
      ∧ isTerminal Params.default 0x0000001F#32 = true ∧ isTerminal Params.default 0x00000020#32 = false := by decide
/-- 95_test_vectors.md section 2.2. -/
theorem test_decode_pi :
    decodePI 0b00000#5 = .pitch ⟨0, by decide⟩ ∧ decodePI 0b01111#5 = .pitch ⟨15, by decide⟩
      ∧ decodePI 0b10000#5 = .noise ∧ decodePI 0b10001#5 = .pitch ⟨-15, by decide⟩
      ∧ decodePI 0b11000#5 = .pitch ⟨-8, by decide⟩ ∧ decodePI 0b11111#5 = .pitch ⟨-1, by decide⟩ := by decide
/-- 95_test_vectors.md section 2.3. -/
theorem test_encode :
    encodeFrame fA = 0x86B3CDA0#32 ∧ encodeFrame f70 = 0x00000070#32 ∧ encodeFrame f90 = 0x00000090#32
      ∧ encodeFrame (fr 0 0 0 0 0 0 0 0 1 (.pitch ⟨-1, by decide⟩)) = 0x0000003F#32 := by decide
/-- DECODE: the word at the decoder's input is its operand. -/
theorem test_decode_decoder : decode Params.default (.decoder 0x86B3CDA0#32) = .ok (.decode 0x86B3CDA0#32) := by decide
/-- 30_encoding.md R62: the four command codes. -/
theorem test_decode_commands :
    decode Params.default (.cmd 0b00#2 9) = .ok .nop ∧ decode Params.default (.cmd 0b01#2 9) = .ok (.start 9)
      ∧ decode Params.default (.cmd 0b10#2 9) = .ok .cancel ∧ decode Params.default (.cmd 0b11#2 9) = .ok .rsvd := by
  decide
/-- 30_encoding.md R61: `HIN = cat(cmd, tick)`; the words 010, 001, 100, 101 and 110 of 95_test_vectors.md. -/
theorem test_decode_hin_slots :
    hinCmd 0b010#3 = 0b01#2 ∧ hinTick 0b010#3 = 0#1 ∧ hinCmd 0b001#3 = 0b00#2 ∧ hinTick 0b001#3 = 1#1
      ∧ hinCmd 0b101#3 = 0b10#2 ∧ hinTick 0b101#3 = 1#1 ∧ hinCmd 0b110#3 = 0b11#2 ∧ hinOf 0b10#2 0#1 = 0b100#3 := by
  decide
theorem test_decode_tick_and_reset :
    decode Params.default (.tick 1#1) = .ok .tick ∧ decode Params.default (.tick 0#1) = .error .noTick
      ∧ decode Params.default (.rst 1#1) = .ok .reset ∧ decode Params.default (.rst 0#1) = .error .noReset := by decide
/-- 41_frame_sequencer.md R98 and the code 1 of Loading: the LOAD rows. -/
theorem test_decode_load_rows :
    decode Params.default (.internal 1#3 ⟨false, true, true, false, false⟩) = .ok .loadFetch
      ∧ decode Params.default (.internal 1#3 ⟨false, false, true, true, true⟩) = .ok .loadTerminal
      ∧ decode Params.default (.internal 1#3 ⟨false, false, false, false, true⟩) = .ok .loadCross
      ∧ decode Params.default (.internal 1#3 ⟨false, false, false, false, false⟩) = .ok .loadExhaust
      ∧ decode Params.default (.internal 1#3 ⟨true, false, true, true, true⟩) = .error .noInternalStep := by decide
/-- 41_frame_sequencer.md R104 and the code 2 of Playing; the codes never held (10_state.md R15). -/
theorem test_decode_wait :
    decode Params.default (.internal 2#3 ⟨false, true, false, false, false⟩) = .ok .wait
      ∧ decode Params.default (.internal 2#3 ⟨false, false, false, false, false⟩) = .error .noInternalStep
      ∧ decode Params.default (.internal 5#3 ⟨false, true, true, true, true⟩) = .error .stCodeNeverHeld := by decide
/-- 30_encoding.md R46: four bytes are a frame, fewer are not. -/
theorem test_decode_bytes :
    decodeBytes Params.default [0x86, 0xB3, 0xCD, 0xA0, 1] = .ok (.frameVoiced fA, [1])
      ∧ decodeBytes Params.default [0x86, 0xB3, 0xCD] = .error .shortFrame := by
  constructor <;> rfl
/-- Log entry 14: the table's own numbering. -/
theorem test_table_words :
    decodeTableWord 32 0x86B3CDA0 = some (.frameVoiced fA) ∧ decodeTableWord 32 0 = some (.frameTerminal f0)
      ∧ decodeTableWord 8 0b010 = some (.start 0) ∧ decodeTableWord 8 0b100 = some .cancel
      ∧ decodeTableWord 8 1 = some .tick ∧ decodeTableWord 40 (2 ^ 32) = none := by decide
/-- 30_encoding.md R60: the bundle of a voiced and of a noise frame. -/
theorem test_bundle :
    frameBundle fA = 0x086B3CDA0#33 ∧ frameBundle f70 = 0x100000060#33 := by decide

/-! ### One step: 95_test_vectors.md section 2.5 -/

/-- V1 to V4 (START). -/
theorem test_start_from_idle :
    cyc idle (ln 0b010) = some (⟨.loading, some 0, 0, 0, 0, false, .none⟩, none)
      ∧ cyc idle (ln 0b010 2) = some (⟨.stopped, some 2, 0, 0, 0, false, .empty⟩, none)
      ∧ cyc idle (ln 0b010 3) = some (⟨.stopped, some 3, 0, 0, 0, false, .empty⟩, none)
      ∧ cyc idle (ln 0b010 4) = some (⟨.stopped, some 4, 0, 0, 0, false, .empty⟩, none) := by decide
/-- V5, V6, V27, V28 (START): TRUNCATED before EMPTY, and START from Stopped and Cancelled. -/
theorem test_start_truncated_and_restart :
    cyc idle (ln 0b010 5) = some (⟨.stopped, some 5, 0, 0, 0, false, .truncated⟩, none)
      ∧ cyc idle (ln 0b010 6) = some (⟨.stopped, some 6, 0, 0, 0, false, .truncated⟩, none)
      ∧ cyc (at_ .stopped 0 0 4 0 false .terminal) (ln 0b010 1)
        = some (⟨.loading, some 1, 0, 0, 0, false, .none⟩, none)
      ∧ cyc (at_ .cancelled 0 0 4 0 true .none) (ln 0b010 3)
        = some (⟨.stopped, some 3, 0, 0, 0, false, .empty⟩, none) := by decide
/-- V7, V12, V13 (CANCEL): it pre-empts a dispatch and a terminal stop. -/
theorem test_cancel_before_load :
    cyc idle (ln 0b101) = some (⟨.cancelled, none, 0, 0, 0, true, .none⟩, none)
      ∧ cyc (load 0 0 0) (ln 0b100) = some (⟨.cancelled, some 0, 0, 0, 0, true, .none⟩, none)
      ∧ cyc (load 0 0 4) (ln 0b100) = some (⟨.cancelled, some 0, 0, 4, 0, true, .none⟩, none) := by decide
/-- V23, V24, V26 (CANCEL). -/
theorem test_cancel_in_playing_and_stopped :
    cyc (play 0 0 4 1 false) (ln 0b101) = some (⟨.cancelled, some 0, 0, 4, 0, true, .none⟩, none)
      ∧ cyc (play 0 0 4 8 false) (ln 0b100) = some (⟨.playing, some 0, 0, 4, 8, true, .none⟩, none)
      ∧ cyc (at_ .stopped 0 0 4 0 false .terminal) (ln 0b101)
        = some (⟨.stopped, some 0, 0, 4, 0, false, .terminal⟩, none) := by decide
/-- V8, V19, V29 (NOP, TICK outside Playing). -/
theorem test_nop_and_ignored_tick :
    cyc idle (ln 0b001) = regs idle ∧ cyc (play 0 0 4 2 false) (ln 0b000) = regs (play 0 0 4 2 false)
      ∧ cyc (at_ .cancelled 0 0 4 0 true .none) (ln 0b001) = regs (at_ .cancelled 0 0 4 0 true .none) := by decide
/-- V9, and the example of 41_frame_sequencer.md R92 (RSVD). -/
theorem test_rsvd :
    cyc idle (ln 0b110) = regs idle
      ∧ cyc (play 0 0 4 2 false) (ln 0b111) = some (⟨.playing, some 0, 0, 4, 1, false, .none⟩, none) := by decide
/-- V10 and V14 (LOAD_FETCH of a voiced frame, START ignored, the tick not counted). -/
theorem test_load_fetch :
    cyc (load 0 0 0) (ln 0b001) = some (⟨.playing, some 0, 0, 4, 2, false, .none⟩, some fA)
      ∧ cyc (load 0 0 0) (ln 0b010 1) = some (⟨.playing, some 0, 0, 4, 2, false, .none⟩, some fA) := by decide
/-- V16 (LOAD_FETCH of a noise frame). -/
theorem test_load_fetch_noise :
    cyc (load 1 1 0) (ln 0b000) = some (⟨.playing, some 1, 1, 4, 8, false, .none⟩, some f70) := by decide
/-- V11 (LOAD_TERMINAL). -/
theorem test_load_terminal :
    cyc (load 0 0 4) (ln 0b000) = some (⟨.stopped, some 0, 0, 4, 0, false, .terminal⟩, none) := by decide
/-- V15, V18 (LOAD_CROSS, over a played and over an empty buffer). -/
theorem test_load_cross :
    cyc (load 1 0 4) (ln 0b000) = regs (load 1 1 0) ∧ cyc (load 4 0 0) (ln 0b000) = regs (load 4 1 0) := by decide
/-- V17 (LOAD_EXHAUST). -/
theorem test_load_exhaust :
    cyc (load 1 1 4) (ln 0b000) = some (⟨.stopped, some 1, 1, 4, 0, false, .exhausted⟩, none) := by decide
/-- V20, V21, V22 (WAIT). -/
theorem test_wait :
    cyc (play 0 0 4 2 false) (ln 0b001) = regs (play 0 0 4 1 false)
      ∧ cyc (play 0 0 4 1 false) (ln 0b001) = some (⟨.loading, some 0, 0, 4, 0, false, .none⟩, none)
      ∧ cyc (play 0 0 4 1 true) (ln 0b001) = some (⟨.cancelled, some 0, 0, 4, 0, true, .none⟩, none) := by decide
/-- V25 (TICK with an ignored START). -/
theorem test_tick_with_start : cyc (play 0 0 4 2 false) (ln 0b011 1) = regs (play 0 0 4 1 false) := by decide
/-- V30 (RESET with START X TICK). -/
theorem test_reset :
    cyc (play 0 0 4 2 true) ⟨1, 0b011, 1⟩ = some (⟨.idle, none, 0, 0, 0, false, .none⟩, none) := by decide
/-- 40_frame_decoder.md R77 (DECODE): the record, and no register written. -/
theorem test_exec_decode :
    exec (.decode 0x86B3CDA0#32) idle = .next { idle with decoded := some fA } := by rfl
/-- 41_frame_sequencer.md R99, R100 (the frame rows in Loading). -/
theorem test_exec_frames :
    seen (exec (.frameVoiced fA) (load 0 0 0)) = some (⟨.playing, some 0, 0, 4, 2, false, .none⟩, some fA)
      ∧ seen (exec (.frameNoise f70) (load 0 0 0)) = some (⟨.playing, some 0, 0, 4, 8, false, .none⟩, some f70)
      ∧ seen (exec (.frameTerminal f0) (load 0 0 0)) = some (⟨.stopped, some 0, 0, 0, 0, false, .terminal⟩, none) := by
  decide
/-- 10_state.md R22: `STATUS = cat(cp, reason, st)`, written out; 60_exceptions.md R143 for EMPTY. -/
theorem test_status :
    (at_ .cancelled 0 0 4 0 true .none).status = 0b1000100#7
      ∧ (at_ .stopped 3 0 0 0 false .empty).status = 0b0011011#7 ∧ State.reset.status = 0#7 := by decide
/-- 10_state.md R29. -/
theorem test_reset_state : State.reset.regs = ⟨.idle, none, 0, 0, 0, false, .none⟩ ∧ State.reset.dv = 0#1 := by decide
/-- Log entry 14: `withFetchWord` puts a row's word where the next step fetches it. -/
theorem test_fetch_word :
    seen (step (State.reset.withFetchWord 32 0x86B3CDA0)) = some (⟨.playing, some 0, 0, 4, 2, false, .none⟩, some fA)
      ∧ seen (step (State.reset.withFetchWord 8 0b100)) = some (⟨.cancelled, none, 0, 0, 0, true, .none⟩, none) := by
  decide

/-! ### The hypotheses of the statements are met

Each theorem meets all the hypotheses of the statement it is named after, clause by clause where there are several. -/

/-- The frame classes, each at the edge of the terminal words, and a non-default comparator. -/
theorem meets_DecodeEncodeInstr_EveryWordHasItsClass :
    WellFormed Params.default (.frameTerminal f0) = true ∧ WellFormed Params.default (.frameNoise f70) = true
      ∧ WellFormed Params.default (.frameVoiced fA) = true
      ∧ isTerminal Params.default 0x0000001F#32 = true
      ∧ (isTerminal Params.default 0x00000030#32 = false ∧ (0x00000030#32).extractLsb' 0 5 = 0b10000#5)
      ∧ (isTerminal Params.default 0x00000020#32 = false ∧ (0x00000020#32).extractLsb' 0 5 ≠ 0b10000#5)
      ∧ isTerminal { Params.default with termMask := 0xFFFFFFFF#32 } 0x00000010#32 = false := by decide

/-- Each duration (FrameDurations); the four bytes of StorageReadIsBigEndian, and one too few. -/
theorem meets_FrameDurations_StorageReadIsBigEndian :
    (f8.fd = 0#2 ∧ fA.fd = 1#2 ∧ (decodeWord 0x00000040#32).fd = 2#2 ∧ f70.fd = 3#2)
      ∧ (w8[0]? = some 0x80 ∧ w8[0 + 1]? = some 0 ∧ w8[0 + 2]? = some 0 ∧ w8[0 + 3]? = some 0)
      ∧ w8.length < 1 + 4 := by decide

/-- A state in Loading at the first frame of A, and one in Playing with one tick left. -/
theorem meets_Inv : Inv (load 0 0 0) ∧ Inv (play 0 0 4 1 false) := by
  constructor
  · constructor <;> simp [load, at_]
    exact ⟨[[0x86, 0xB3, 0xCD, 0xA0, 0, 0, 0, 0]], rfl, _, rfl⟩
  · constructor <;> simp [play, at_]
    exact ⟨[[0x86, 0xB3, 0xCD, 0xA0, 0, 0, 0, 0]], rfl, _, rfl, by decide⟩

/-- The sound of `meets_Inv` is an accepted one, and a word is read: one dispatched, one terminal
(ReadsAreAlignedAndWhole). -/
theorem meets_ReadsAreAlignedAndWhole :
    LatchedSoundAccepted (load 0 0 0) ∧ (load 0 0 0).loadCase = .ok (.fetch 0x86B3CDA0#32)
      ∧ (load 0 0 4).loadCase = .ok (.terminal 0#32) := by
  exact ⟨fun _ => ⟨[[0x86, 0xB3, 0xCD, 0xA0, 0, 0, 0, 0]], rfl, rfl⟩, rfl, rfl⟩

/-- One bit of `bi` and three of `off`, with the cursor at the greatest values START lets in: bi = 1, off = 4. -/
def narrow : State := { load 1 1 4 with params := { Params.default with biW := some 1, offW := some 3 } }
theorem meets_CursorFitsItsWidths : Inv narrow ∧ LatchedSoundAccepted narrow ∧ narrow.regs.st = .loading := by
  refine ⟨?_, fun _ => ⟨[w8, [0, 0, 0, 0x70]], rfl, rfl⟩, rfl⟩
  constructor <;> simp [narrow, load, at_]
  exact ⟨[w8, [0, 0, 0, 0x70]], rfl, _, rfl, by decide⟩

/-- A step and an instruction that answer a next state (the frame statements, StepLeavesStorage, StepKeepsInvariant,
TransitionTable). -/
theorem meets_next : (∃ t, step ((load 0 0 0).driven (ln 0)) = .next t) ∧ (∃ t, exec .loadFetch (load 0 0 0) = .next t)
    ∧ (load 0 0 0).mem.wf = true := ⟨⟨_, rfl⟩, ⟨_, rfl⟩, by decide⟩

/-- Lines with reset; RSVD and NOP; START and NOP; a START not acted on. -/
theorem meets_lines :
    (⟨1, 0b011, 1⟩ : InputLine).rst = 1#1
      ∧ ((ln 0b111).rst = (ln 0b001).rst ∧ hinTick (ln 0b111).hin = hinTick (ln 0b001).hin
        ∧ hinCmd (ln 0b111).hin = 0b11#2 ∧ hinCmd (ln 0b001).hin = 0b00#2)
      ∧ (hinTick (ln 0b010).hin = hinTick (ln 0b000).hin ∧ hinCmd (ln 0b010).hin = 0b01#2
        ∧ hinCmd (ln 0b000).hin = 0b00#2 ∧ (load 0 0 0).regs.st = .loading ∧ (play 0 0 4 1 false).regs.st = .playing)
      ∧ startsRun ⟨0, 0b010, 1⟩ (load 0 0 0) = false ∧ startsRun ⟨0, 0b000, 1⟩ idle = false := by decide

/-- START's three cases where they meet (41_frame_sequencer.md R93): two buffers in one bit of `bi` fit and three do not;
a buffer of four bytes fits three bits of `off` and not two; a length that is not a multiple of 4. -/
theorem meets_StartByCase :
    startResult { Params.default with biW := some 1 } [w8, w8] = (.loading, .none)
      ∧ startResult { Params.default with biW := some 1 } [w8, w8, w8] = (.stopped, .truncated)
      ∧ startResult { Params.default with offW := some 3 } [w8] = (.loading, .none)
      ∧ startResult { Params.default with offW := some 2 } [w8] = (.stopped, .truncated)
      ∧ startResult Params.default [[], [1, 2]] = (.stopped, .truncated)
      ∧ startResult Params.default [[], w8] = (.stopped, .empty) := by decide

/-- The states and lines of CancelByState, CancelPreemptsLoad, CancelWithFinalTick, TickIgnoredOutsidePlaying,
QuiescentStatesHold and the three clauses of WaitCountsDown. -/
theorem meets_cancel_tick_wait :
    (load 0 0 0).regs.st = .loading ∧ (ln 0b100).isReset = false ∧ (ln 0b100).isCancel = true
      ∧ ((play 0 0 4 1 false).regs.cnt = 1#4 ∧ (ln 0b101).isCancel = true ∧ (ln 0b101).isTick = true)
      ∧ idle.regs.st ≠ .playing
      ∧ ((play 0 0 4 8 false).regs.cnt ≠ 0#4 ∧ (play 0 0 4 8 false).regs.cnt ≠ 1#4)
      ∧ ((play 0 0 4 1 true).regs.cnt = 1#4 ∧ (play 0 0 4 1 true).regs.cp = true)
      ∧ ((ln 0b001).isStart = false ∧ (ln 0b001).isReset = false ∧ (ln 0b001).isCancel = false)
      ∧ (at_ .stopped 0 0 4 0 false .terminal).regs.st = .stopped
      ∧ (at_ .cancelled 0 0 4 0 true .none).regs.st = .cancelled := by decide

/-- The operands of the LOAD statements: a frame to dispatch at the last place of its buffer, a terminal one, an exhausted
buffer that another follows, and the last one exhausted. -/
theorem meets_LoadStatements :
    ((load 1 1 0).sound? = some [w8, [0, 0, 0, 0x70]] ∧ [w8, [0, 0, 0, 0x70]][1]? = some [0, 0, 0, 0x70]
        ∧ readWord [0, 0, 0, 0x70] 0 = some 0x70#32 ∧ isTerminal Params.default 0x70#32 = false)
      ∧ ((load 0 0 4).sound? = some [[0x86, 0xB3, 0xCD, 0xA0, 0, 0, 0, 0]]
        ∧ readWord [0x86, 0xB3, 0xCD, 0xA0, 0, 0, 0, 0] 4 = some 0#32 ∧ isTerminal Params.default 0#32 = true)
      ∧ ((load 1 0 4).sound? = some [w8, [0, 0, 0, 0x70]] ∧ w8.length < 4 + 4 ∧ 0 + 1 < 2)
      ∧ ((load 1 1 4).regs.bi = 1 ∧ [0, 0, 0, 0x70].length < 4 + 4 ∧ 2 ≤ 1 + 1) := by decide

/-- UnselectedRowsAreInert in Loading: a whole voiced frame left (not loadTerminal, loadCross, loadExhaust), a terminal
one (not loadFetch), the first buffer exhausted (not loadExhaust) and the last one (not loadCross). -/
theorem meets_UnselectedRowsAreInert :
    (load 1 0 0).loadCase = .ok (.fetch 0x80000000#32) ∧ (load 0 0 4).loadCase = .ok (.terminal 0#32)
      ∧ (load 1 0 4).loadCase = .ok .cross ∧ (load 1 1 4).loadCase = .ok .exhaust
      ∧ seen (exec .loadCross (load 1 0 0)) = regs (load 1 0 0)
      ∧ seen (exec .loadFetch (load 0 0 4)) = regs (load 0 0 4) := ⟨rfl, rfl, rfl, rfl, rfl, rfl⟩

/-- The last clause of CntAndStKeptByOtherRows (log entry 12). -/
theorem meets_CntAndStKeptByOtherRows :
    (play 0 0 4 0 false).regs.st = .playing ∧ (play 0 0 4 0 false).regs.cnt = 0#4
      ∧ ∃ t, exec .wait (play 0 0 4 0 false) = .next t := ⟨rfl, rfl, _, rfl⟩

/-- The LOAD row and the four bytes of StepRunsSelectedRow and StepRunsFetchedFrame, for a frame that is dispatched and
for a terminal one. -/
theorem meets_StepRuns :
    (load 0 0 0).loadCase = .ok (.fetch 0x86B3CDA0#32)
      ∧ decodeInternal SeqState.loading.code (LoadCase.fetch 0x86B3CDA0#32).cond = .ok .loadFetch
      ∧ (load 0 0 0).regs.snd = some 0
      ∧ (sounds.byteAt 0 0 0 = some 0x86 ∧ sounds.byteAt 0 0 1 = some 0xB3 ∧ sounds.byteAt 0 0 2 = some 0xCD
        ∧ sounds.byteAt 0 0 3 = some 0xA0
        ∧ decodeBytes Params.default [0x86, 0xB3, 0xCD, 0xA0] = .ok (.frameVoiced fA, [])
        ∧ isTerminal Params.default (wordOfBytes 0x86 0xB3 0xCD 0xA0) = false)
      ∧ (sounds.byteAt 0 0 4 = some 0 ∧ sounds.byteAt 0 0 7 = some 0
        ∧ decodeBytes Params.default [0, 0, 0, 0] = .ok (.frameTerminal f0, [])
        ∧ isTerminal Params.default (wordOfBytes 0 0 0 0) = true) := by
  refine ⟨rfl, rfl, rfl, ⟨rfl, rfl, rfl, rfl, rfl, rfl⟩, rfl, rfl, rfl, rfl⟩

/-- The guards of the rows of TransitionTable: a state in each of the five states, and lines for each condition. -/
theorem meets_TransitionTable :
    idle.regs.st = .idle ∧ (ln 0b010).isStart = true ∧ (ln 0b101).isCancel = true
      ∧ readWord w8 0 = some 0x80000000#32 ∧ readWord w8 4 = none
      ∧ (play 0 0 4 2 false).regs.cnt ≠ 1#4 ∧ (ln 0b001).isTick = true ∧ (ln 0b000).isTick = false := by decide

/-- EntryToStoppedKeepsCursor: from Loading to Stopped (V11). -/
theorem meets_EntryToStoppedKeepsCursor :
    ∃ t, step ((load 0 0 4).driven (ln 0)) = .next t ∧ t.regs.st = .stopped := ⟨_, rfl, rfl⟩

/-! Runs: START of a sound in cycle 0 and NOP with a tick in every later cycle. -/

/-- START of `r`, then a tick in every cycle. -/
def runOf (r : Ref) : Nat → InputLine := fun k => if k = 0 then ln 0b010 r else ln 0b001

theorem meets_PlainRun (s : State) (r : Ref) (h : s.regs.st.acceptsStart = true) : PlainRun (runOf r) s r := by
  refine ⟨?_, rfl, fun k hk => ?_⟩
  · have h' : (!(ln 0b010).isReset && (ln 0b010).isStart) = true := by decide
    simp only [startsRun, h, Bool.and_true]
    exact h'
  · simp only [runOf, show k ≠ 0 by omega, if_false]
    decide

theorem meets_TicksForever (r : Ref) : TicksForever (runOf r) :=
  fun n => ⟨n + 1, by omega, by simp only [runOf, Nat.add_one_ne_zero, if_false]; decide⟩

theorem meets_SameRun (r : Ref) (s : State) (n : Nat) : SameRun (runOf r) s n := by
  intro k t hk _ _
  have h : runOf r k = ln 0b001 := by simp only [runOf, show k ≠ 0 by omega, if_false]
  have h' : (ln 0b001).isReset = false ∧ (ln 0b001).isStart = false := by decide
  rw [h]
  exact ⟨h'.1, by simp only [startsRun, h'.2, Bool.and_false, Bool.false_and]⟩

/-- DispatchesArePrefixOfStream. -/
theorem meets_DispatchesArePrefixOfStream : startsRun (runOf 0 0) idle = true ∧ SameRun (runOf 0) idle 6 :=
  ⟨by decide, meets_SameRun 0 idle 6⟩

/-- PlainRunDispatchesUpToTerminal, on a sound of each of R93's three kinds. -/
theorem meets_PlainRunDispatchesUpToTerminal :
    (PlainRun (runOf 0) idle 0 ∧ TicksForever (runOf 0)) ∧ (PlainRun (runOf 4) idle 4 ∧ TicksForever (runOf 4))
      ∧ (PlainRun (runOf 5) idle 5 ∧ TicksForever (runOf 5)) :=
  ⟨⟨meets_PlainRun idle 0 rfl, meets_TicksForever 0⟩, ⟨meets_PlainRun idle 4 rfl, meets_TicksForever 4⟩,
    meets_PlainRun idle 5 rfl, meets_TicksForever 5⟩

/-- BufferJoinsAreInvisible: X, and its two buffers as one. -/
theorem meets_BufferJoinsAreInvisible :
    PlainRun (runOf 1) idle 1 ∧ PlainRun (runOf 8) idle 8 ∧ TicksForever (runOf 1) ∧ TicksForever (runOf 8)
      ∧ idle.mem.sound 8 = [(idle.mem.sound 1).flatten]
      ∧ startResult idle.params (idle.mem.sound 1) = (.loading, .none)
      ∧ startResult idle.params [(idle.mem.sound 1).flatten] = (.loading, .none) :=
  ⟨meets_PlainRun idle 1 rfl, meets_PlainRun idle 8 rfl, meets_TicksForever 1, meets_TicksForever 8, rfl, rfl, rfl⟩

/-- The sounds of the runs: A has a terminal frame and X has none; Z2 and T1 stop at START. -/
theorem meets_PlainRun_sounds :
    startResult Params.default (sounds.sound 0) = (.loading, .none)
      ∧ startResult Params.default (sounds.sound 1) = (.loading, .none)
      ∧ startResult Params.default (sounds.sound 4) = (.stopped, .empty)
      ∧ startResult Params.default (sounds.sound 5) = (.stopped, .truncated)
      ∧ (playedWords Params.default (sounds.sound 0)).length < (frameStream (sounds.sound 0)).length
      ∧ (playedWords Params.default (sounds.sound 1)).length = (frameStream (sounds.sound 1)).length := by decide

/-- RunLengthIsBounded: the run of A ends after 5 cycles: START, the dispatch, two ticks, the terminal stop. -/
theorem meets_RunLengthIsBounded :
    PlainRun (runOf 0) idle 0 ∧ startResult idle.params (idle.mem.sound 0) = (.loading, .none)
      ∧ RunEndsAt (runOf 0) idle 5 := by
  refine ⟨meets_PlainRun idle 0 rfl, rfl, by decide, .inl (by decide), fun m h1 h2 => ?_⟩
  obtain rfl | rfl | rfl | rfl : m = 1 ∨ m = 2 ∨ m = 3 ∨ m = 4 := by omega
  all_goals decide

/-- PlayingHoldsWithoutTick: NOP without a tick in every cycle. -/
theorem meets_PlayingHoldsWithoutTick :
    (play 0 0 4 2 false).regs.st = .playing ∧ (ln 0b000).isReset = false ∧ (ln 0b000).isTick = false := by decide

/-- CANCEL in cycle 0, then a tick in every cycle (NoDispatchAfterCancel, CancelledWaitRunsToItsEnd). -/
def cancelThenTicks : Nat → InputLine := fun k => if k = 0 then ln 0b100 else ln 0b001

theorem meets_Cancel (s : State) (n : Nat) :
    (cancelThenTicks 0).isReset = false ∧ (cancelThenTicks 0).isCancel = true
      ∧ (∀ k, k < n → (cancelThenTicks k).isReset = false ∧ (cancelThenTicks k).isStart = false)
      ∧ ∀ k t, 1 ≤ k → k < n → drive cancelThenTicks k s = .next t → startsRun (cancelThenTicks k) t = false := by
  have h : ∀ k, (cancelThenTicks k).isReset = false ∧ (cancelThenTicks k).isStart = false := by
    intro k
    unfold cancelThenTicks
    split <;> decide
  exact ⟨(h 0).1, by decide, fun k _ => h k, fun k t _ _ _ => by simp [startsRun, (h k).2]⟩

/-- The two clauses of CancelledWaitRunsToItsEnd where they meet: one tick of two, and both. -/
theorem meets_CancelledWaitRunsToItsEnd :
    ticksFrom cancelThenTicks 0 2 = 1 ∧ ticksFrom cancelThenTicks 0 3 = 2
      ∧ (play 0 0 4 2 false).regs.cnt.toNat = 2 := by decide

/-- WaitLastsTwoToTheFdTicks: A's first frame (fd = 1) is dispatched in cycle 0 from a state with the invariant, with a
tick in every cycle; after one cycle more one tick has come, after two both, the last in the second. -/
theorem meets_WaitLastsTwoToTheFdTicks :
    Inv (load 0 0 0) ∧ dispatchAt (fun _ => ln 0b001) (load 0 0 0) 0 = some fA ∧ fA.fd.toNat = 1
      ∧ ticksFrom (fun _ => ln 0b001) 1 1 = 1 ∧ ticksFrom (fun _ => ln 0b001) 1 2 = 2
      ∧ (ln 0b001).isTick = true ∧ (ln 0b001).isReset = false :=
  ⟨meets_Inv.1, by decide⟩

/-- A tick in the cycles `k` with `k + a` divisible by `Q`, NOP in every cycle. -/
def tickEvery (Q a : Nat) : Nat → InputLine := fun k => if (k + a) % Q = 0 then ln 0b001 else ln 0b000

theorem meets_TicksEvery (Q a : Nat) : TicksEvery Q a (tickEvery Q a) := by
  intro k
  have h1 : (ln 0b001).isTick = true := by decide
  have h2 : (ln 0b000).isTick = false := by decide
  unfold tickEvery
  split <;> simp_all

/-- S2 of 95_test_vectors.md P2. -/
def s2 : NamedSound := [w8, [], [0, 0, 0, 0x90, 0, 0, 0, 0x3F]]

/-- A state of P2 in Loading has the invariant, and S2 is accepted. -/
theorem meets_Inv_s2 : (Inv (load 7 0 0) ∧ LatchedSoundAccepted (load 7 0 0))
    ∧ (Inv (load 7 2 0) ∧ LatchedSoundAccepted (load 7 2 0)) := by
  refine ⟨⟨?_, fun _ => ⟨s2, rfl, rfl⟩⟩, ?_, fun _ => ⟨s2, rfl, rfl⟩⟩
  · constructor <;> simp [load, at_]
    exact ⟨s2, rfl, _, rfl⟩
  · constructor <;> simp [load, at_]
    exact ⟨s2, rfl, _, rfl⟩

theorem tickEvery_plain (Q a k : Nat) :
    (tickEvery Q a k).isReset = false ∧ (tickEvery Q a k).isStart = false ∧ (tickEvery Q a k).isCancel = false := by
  unfold tickEvery
  split <;> decide

/-- No line of `tickEvery` is a reset, a START or a CANCEL. -/
theorem meets_SameRun_tickEvery (Q a : Nat) (s : State) (n : Nat) :
    SameRun (tickEvery Q a) s n ∧ ∀ k, 1 ≤ k → k ≤ n → (tickEvery Q a k).isCancel = false := by
  refine ⟨fun k t _ _ _ => ⟨(tickEvery_plain Q a k).1, ?_⟩, fun k _ _ => (tickEvery_plain Q a k).2.2⟩
  simp only [startsRun, (tickEvery_plain Q a k).2.1, Bool.and_false, Bool.false_and]

/-- CadenceIsExact, with `meets_TicksEvery`, `meets_Inv_s2` and `meets_SameRun_tickEvery`: P2 from its cycle 2 on (Q = 4,
Cmax = 2, so Q is the least allowed): the noise frame comes five cycles after the first, over two crossings, the most
there are. -/
theorem meets_CadenceIsExact :
    (load 7 0 0).sound? = some s2 ∧ maxCrossings s2 = 2 ∧ 2 + maxCrossings s2 ≤ 4
      ∧ dispatchAt (tickEvery 4 2) (load 7 0 0) 0 = some f8 ∧ dispatchAt (tickEvery 4 2) (load 7 0 0) 5 = some f90
      ∧ ∀ k, k < 5 → 1 ≤ k → dispatchAt (tickEvery 4 2) (load 7 0 0) k = none := by decide

/-- The same from P2's cycle 7 on: the next frame comes two cycles later, over no crossing. -/
theorem meets_CadenceIsExact_without_crossing :
    (load 7 2 0).sound? = some s2 ∧ dispatchAt (tickEvery 4 7) (load 7 2 0) 0 = some f90
      ∧ (dispatchAt (tickEvery 4 7) (load 7 2 0) 2).isSome = true
      ∧ dispatchAt (tickEvery 4 7) (load 7 2 0) 1 = none := by decide

end Sys2Proof.Tests
end

/-! ## The state: what one cycle can do, the invariant, and which row writes which register (10_state.md) -/

namespace Sys2Proof.Machine

/-! ### What one cycle can do -/

/-- Everything one cycle with the inputs `l` can make of the state `s`, guards included: the branches of
41_frame_sequencer.md R87, the LOAD step by the cases of R98. -/
inductive CycleOutcome (l : InputLine) (s : State) : State → Prop
  /-- `rst = 1` (70_reset_and_hazards.md R146) -/
  | reset (hr : l.isReset = true) : CycleOutcome l s s.resetRegs
  /-- Idle, Stopped and Cancelled without a command that acts there -/
  | held (hr : l.isReset = false) (hst : s.regs.st ≠ .loading ∧ s.regs.st ≠ .playing) : CycleOutcome l s s
  /-- a START that is acted on (R93) -/
  | started (hr : l.isReset = false) (hs : l.isStart = true) (ha : s.regs.st.acceptsStart = true) :
      CycleOutcome l s (s.doStart l.sndIn)
  /-- CANCEL in Idle and Loading (R95) -/
  | cancelled (hr : l.isReset = false) (hc : l.isCancel = true) (hst : s.regs.st = .idle ∨ s.regs.st = .loading) :
      CycleOutcome l s s.enterCancelled
  /-- Playing without a tick; a CANCEL is latched (R88) -/
  | waiting (hr : l.isReset = false) (hst : s.regs.st = .playing) (ht : l.isTick = false) :
      CycleOutcome l s (s.latchCancel l)
  /-- Playing with a tick (R104, R105) -/
  | ticked (hr : l.isReset = false) (hst : s.regs.st = .playing) (ht : l.isTick = true) :
      CycleOutcome l s (s.latchCancel l).waitTick
  /-- the LOAD step on a frame to dispatch (R99) -/
  | fetched {S : NamedSound} {buf : SoundBuffer} {w : Word32} (hr : l.isReset = false) (hc : l.isCancel = false)
      (hst : s.regs.st = .loading) (hS : s.sound? = some S) (hb : S[s.regs.bi]? = some buf)
      (hw : readWord buf s.regs.off = some w) (hn : isTerminal s.params w = false) : CycleOutcome l s (s.fetched w)
  /-- the LOAD step on a terminal frame (R100) -/
  | terminal {S : NamedSound} {buf : SoundBuffer} {w : Word32} (hr : l.isReset = false) (hc : l.isCancel = false)
      (hst : s.regs.st = .loading) (hS : s.sound? = some S) (hb : S[s.regs.bi]? = some buf)
      (hw : readWord buf s.regs.off = some w) (hn : isTerminal s.params w = true) :
      CycleOutcome l s (s.enterStopped .terminal)
  /-- the LOAD step where the buffer is exhausted and another follows (R101) -/
  | crossed {S : NamedSound} {buf : SoundBuffer} (hr : l.isReset = false) (hc : l.isCancel = false)
      (hst : s.regs.st = .loading) (hS : s.sound? = some S) (hb : S[s.regs.bi]? = some buf)
      (hlen : buf.length < s.regs.off + 4) (hn : s.regs.bi + 1 < S.length) : CycleOutcome l s s.cross
  /-- the LOAD step where the last buffer is exhausted (R102) -/
  | exhausted {S : NamedSound} {buf : SoundBuffer} (hr : l.isReset = false) (hc : l.isCancel = false)
      (hst : s.regs.st = .loading) (hS : s.sound? = some S) (hb : S[s.regs.bi]? = some buf)
      (hlen : buf.length < s.regs.off + 4) (hn : S.length ≤ s.regs.bi + 1) :
      CycleOutcome l s (s.enterStopped .exhausted)

/-- A cycle in Loading without reset and CANCEL has one of the four LOAD outcomes. -/
theorem cycleOutcome_of_loadAnswer {l : InputLine} {s t : State} (hr : l.isReset = false) (hc : l.isCancel = false)
    (hst : s.regs.st = .loading) (h : loadAnswer s = .next t) : CycleOutcome l s t := by
  obtain ⟨S, buf, hS, hb, h⟩ := loadAnswer_next h hst
  rcases h with ⟨w, hw, hn, rfl⟩ | ⟨w, hw, hn, rfl⟩ | ⟨hlen, hn, rfl⟩ | ⟨hlen, hn, rfl⟩
  · exact .fetched hr hc hst hS hb hw hn
  · exact .terminal hr hc hst hS hb hw hn
  · exact .crossed hr hc hst hS hb hlen hn
  · exact .exhausted hr hc hst hS hb hlen hn

/-- The inversion of a cycle: if it answers a next state, that is one of the outcomes. -/
theorem runCycle_outcome {l : InputLine} {s t : State} (h : runCycle l s = .next t) : CycleOutcome l s t := by
  cases hr : l.isReset with
  | true =>
    rw [runCycle_reset hr] at h
    cases h
    exact .reset hr
  | false =>
    rw [runCycle_inputs hr] at h
    have ended (hst : s.regs.st = .stopped ∨ s.regs.st = .cancelled) : CycleOutcome l s t := by
      rw [runInputs_ended hst] at h
      cases h
      split
      · rename_i hs
        exact .started hr hs (by rcases hst with hst | hst <;> rw [hst] <;> rfl)
      · exact .held hr (by rcases hst with hst | hst <;> simp [hst])
    cases hst : s.regs.st with
    | idle =>
      rw [runInputs_idle hst] at h
      cases h
      split
      · rename_i hs
        exact .started hr hs (by rw [hst]; rfl)
      · split
        · rename_i hc
          exact .cancelled hr hc (.inl hst)
        · exact .held hr (by simp [hst])
    | loading =>
      cases hc : l.isCancel with
      | true =>
        rw [runInputs_loading_cancel hst hc] at h
        cases h
        exact .cancelled hr hc (.inr hst)
      | false =>
        rw [runInputs_loading hst hc] at h
        exact cycleOutcome_of_loadAnswer hr hc hst h
    | playing =>
      rw [runInputs_playing hst] at h
      cases h
      split
      · rename_i ht
        exact .ticked hr hst ht
      · rename_i ht
        exact .waiting hr hst (by simpa using ht)
    | stopped => exact ended (.inl hst)
    | cancelled => exact ended (.inr hst)

/-- The inversion of a step. -/
theorem step_outcome {s t : State} (h : step s = .next t) : CycleOutcome s.inputLine s.beginCycle t :=
  runCycle_outcome h

/-- No outcome of a cycle changes storage or the parameters (20_memory.md R37). -/
theorem CycleOutcome.keeps_mem_params {l : InputLine} {s t : State} (h : CycleOutcome l s t) :
    t.mem = s.mem ∧ t.params = s.params := by
  cases h <;> exact ⟨rfl, rfl⟩

/-! ### The invariant, by state of the sequencer (10_state.md R25) -/

/-- The last clause of `Inv`: the cursor stands in a buffer of the latched sound, or at its end. -/
def CursorInSound (s : State) : Prop :=
  ∃ S buf, s.sound? = some S ∧ S[s.regs.bi]? = some buf ∧ s.regs.off ≤ buf.length

/-- A cursor in a sound needs a latched sound. -/
theorem CursorInSound.snd_ne_none {s : State} (h : CursorInSound s) : s.regs.snd ≠ none := by
  obtain ⟨S, _, hS, -, -⟩ := h
  intro hn
  simp [State.sound?, hn] at hS

/-- What `Inv` asks of a state in Idle. -/
theorem inv_of_idle {s : State} (hst : s.regs.st = .idle) (hreason : s.regs.reason = .none)
    (halign : s.regs.off % 4 = 0) : Inv s := by
  constructor <;> simp [hst, hreason, halign]

/-- What `Inv` asks of a state in Loading. -/
theorem inv_of_loading {s : State} (hst : s.regs.st = .loading) (hcp : s.regs.cp = false) (hcnt : s.regs.cnt = 0#4)
    (hreason : s.regs.reason = .none) (halign : s.regs.off % 4 = 0) (hcur : CursorInSound s) : Inv s := by
  exact
    { playingCnt := by simp [hst]
      loadingClear := fun _ => ⟨hcp, hcnt⟩
      cancelledPending := by simp [hst]
      runningNoReason := fun _ => hreason
      stoppedReason := by simp [hst]
      noSoundQuiet := fun hnone => absurd hnone hcur.snd_ne_none
      aligned := halign
      cursorInSound := fun _ => hcur }

/-- What `Inv` asks of a state in Playing. -/
theorem inv_of_playing {s : State} (hst : s.regs.st = .playing) (hcnt : 1 ≤ s.regs.cnt.toNat ∧ s.regs.cnt.toNat ≤ 8)
    (hreason : s.regs.reason = .none) (halign : s.regs.off % 4 = 0) (hcur : CursorInSound s) : Inv s := by
  exact
    { playingCnt := fun _ => hcnt
      loadingClear := by simp [hst]
      cancelledPending := by simp [hst]
      runningNoReason := fun _ => hreason
      stoppedReason := by simp [hst]
      noSoundQuiet := fun hnone => absurd hnone hcur.snd_ne_none
      aligned := halign
      cursorInSound := fun _ => hcur }

/-- What `Inv` asks of a state in Stopped. -/
theorem inv_of_stopped {s : State} (hst : s.regs.st = .stopped) (hreason : s.regs.reason ≠ .none)
    (hsnd : s.regs.snd ≠ none) (halign : s.regs.off % 4 = 0) : Inv s := by
  constructor <;> simp [hst, hreason, halign, hsnd]

/-- What `Inv` asks of a state in Cancelled. -/
theorem inv_of_cancelled {s : State} (hst : s.regs.st = .cancelled) (hcp : s.regs.cp = true)
    (hreason : s.regs.reason = .none) (halign : s.regs.off % 4 = 0) : Inv s := by
  constructor <;> simp [hst, hcp, hreason, halign]

/-! ### Each update keeps the invariant -/

/-- The invariant speaks of the registers and of storage only. -/
theorem Inv.congr {s t : State} (h : Inv s) (hregs : t.regs = s.regs) (hmem : t.mem = s.mem) : Inv t where
  playingCnt := hregs ▸ h.playingCnt
  loadingClear := hregs ▸ h.loadingClear
  cancelledPending := hregs ▸ h.cancelledPending
  runningNoReason := hregs ▸ h.runningNoReason
  stoppedReason := hregs ▸ h.stoppedReason
  noSoundQuiet := hregs ▸ h.noSoundQuiet
  aligned := hregs ▸ h.aligned
  cursorInSound := by simpa only [State.sound?, hregs, hmem] using h.cursorInSound

/-- The start of a cycle keeps the invariant. -/
theorem Inv.beginCycle {s : State} (h : Inv s) : Inv s.beginCycle := h.congr rfl rfl

/-- Reset gives a state with the invariant, from any state (10_state.md R29). -/
theorem inv_resetRegs (s : State) : Inv s.resetRegs := inv_of_idle rfl rfl rfl

/-- START gives a state with the invariant, from any state: Stopped with the reason of the refusal, or Loading at the
start of a sound whose buffer 0 is not empty (41_frame_sequencer.md R93). -/
theorem inv_doStart (s : State) (r : Ref) : Inv (s.doStart r) := by
  rcases startResult_cases s.params (s.mem.sound r) with hres | hres | ⟨hres, b, rest, hS, -⟩
  · exact inv_of_stopped (by simp [hres]) (by simp [hres]) (by simp) rfl
  · exact inv_of_stopped (by simp [hres]) (by simp [hres]) (by simp) rfl
  · have hcur : CursorInSound (s.doStart r) := ⟨b :: rest, b, by simp [State.sound?, hS], rfl, Nat.zero_le _⟩
    exact inv_of_loading (by simp [hres]) rfl rfl (by simp [hres]) rfl hcur

/-- CANCEL in Idle and Loading (41_frame_sequencer.md R95). -/
theorem Inv.enterCancelled {s : State} (h : Inv s) (hst : s.regs.st = .idle ∨ s.regs.st = .loading) :
    Inv s.enterCancelled :=
  inv_of_cancelled rfl rfl (h.runningNoReason (by tauto)) h.aligned

/-- A cycle in Playing without its tick (41_frame_sequencer.md R104). -/
theorem Inv.latchCancel {s : State} (h : Inv s) (hst : s.regs.st = .playing) (l : InputLine) : Inv (s.latchCancel l) :=
  inv_of_playing hst (h.playingCnt hst) (h.runningNoReason (.inr (.inr hst))) h.aligned (h.cursorInSound (.inr hst))

/-- A tick in Playing: the last one leaves for Loading or Cancelled, and every other one leaves `cnt` in 1..7
(41_frame_sequencer.md R104, R105). -/
theorem Inv.waitTick {s : State} (h : Inv s) (hst : s.regs.st = .playing) : Inv s.waitTick := by
  have hreason := h.runningNoReason (.inr (.inr hst))
  have hcur : CursorInSound s.waitTick := h.cursorInSound (.inr hst)
  by_cases hlast : s.regs.cnt = 1#4
  · cases hcp : s.regs.cp with
    | true => exact inv_of_cancelled (by simp [hlast, hcp, waitEndState]) hcp hreason h.aligned
    | false =>
      exact inv_of_loading (by simp [hlast, hcp, waitEndState]) hcp (by simp [hlast]) hreason h.aligned hcur
  · have hcnt : 1 ≤ (s.regs.cnt - 1#4).toNat ∧ (s.regs.cnt - 1#4).toNat ≤ 8 := by
      have hrange := h.playingCnt hst
      bv_omega
    exact inv_of_playing (by simp [hlast, hst]) hcnt hreason h.aligned hcur

/-- The ticks of a frame fit `cnt` and are in 1..8 (40_frame_decoder.md R75). -/
theorem cnt_of_durTicks (f : SoundFrame) :
    1 ≤ (BitVec.ofNat 4 (durTicks f)).toNat ∧ (BitVec.ofNat 4 (durTicks f)).toNat ≤ 8 := by
  have key : ∀ d : BitVec 2, 1 ≤ (BitVec.ofNat 4 (2 ^ d.toNat)).toNat ∧ (BitVec.ofNat 4 (2 ^ d.toNat)).toNat ≤ 8 := by
    decide
  exact key f.fd

/-- A dispatch from Loading: the word read lies whole in the buffer, so the cursor stays in it
(41_frame_sequencer.md R99). -/
theorem Inv.fetched {s : State} {S : NamedSound} {buf : SoundBuffer} {w : Word32} (h : Inv s)
    (hst : s.regs.st = .loading) (hS : s.sound? = some S) (hb : S[s.regs.bi]? = some buf)
    (hw : readWord buf s.regs.off = some w) : Inv (s.fetched w) := by
  have hwhole : s.regs.off + 4 ≤ buf.length := (readWord_isSome buf s.regs.off).1 (by simp [hw])
  have hcur : CursorInSound (s.fetched w) := ⟨S, buf, hS, hb, hwhole⟩
  have halign : (s.regs.off + 4) % 4 = 0 := by simp [h.aligned]
  exact inv_of_playing rfl (cnt_of_durTicks _) (h.runningNoReason (.inr (.inl hst))) halign hcur

/-- Entry to Stopped from Loading with its cause (60_exceptions.md R134). -/
theorem Inv.enterStopped {s : State} {why : Reason} (h : Inv s) (hst : s.regs.st = .loading) (hwhy : why ≠ .none) :
    Inv (s.enterStopped why) :=
  inv_of_stopped rfl hwhy (CursorInSound.snd_ne_none (h.cursorInSound (.inl hst))) h.aligned

/-- A crossing in Loading to a buffer that exists (41_frame_sequencer.md R101). -/
theorem Inv.cross {s : State} {S : NamedSound} (h : Inv s) (hst : s.regs.st = .loading) (hS : s.sound? = some S)
    (hn : s.regs.bi + 1 < S.length) : Inv s.cross := by
  obtain ⟨hcp, hcnt⟩ := h.loadingClear hst
  have hcur : CursorInSound s.cross := ⟨S, S[s.regs.bi + 1], hS, List.getElem?_eq_getElem hn, Nat.zero_le _⟩
  exact inv_of_loading hst hcp hcnt (h.runningNoReason (.inr (.inl hst))) rfl hcur

/-- Every outcome of a cycle keeps the invariant. -/
theorem CycleOutcome.keeps_inv {l : InputLine} {s t : State} (ho : CycleOutcome l s t) (h : Inv s) : Inv t := by
  cases ho with
  | reset => exact inv_resetRegs s
  | held => exact h
  | started => exact inv_doStart s l.sndIn
  | cancelled _ _ hst => exact h.enterCancelled hst
  | waiting _ hst => exact h.latchCancel hst l
  | ticked _ hst => exact (h.latchCancel hst l).waitTick hst
  | fetched _ _ hst hS hb hw => exact h.fetched hst hS hb hw
  | terminal _ _ hst => exact h.enterStopped hst (by decide)
  | crossed _ _ hst hS _ _ hn => exact h.cross hst hS hn
  | exhausted _ _ hst => exact h.enterStopped hst (by decide)

/-- Settles O19: every outcome of a cycle keeps the invariant. -/
theorem stepKeepsInvariant : Obligations.StepKeepsInvariant := by
  unfold Obligations.StepKeepsInvariant
  exact fun _ _ h hstep => (step_outcome hstep).keeps_inv h.beginCycle

/-! ### Runs from reset go on, with the invariant -/

/-- A sound START lets into Loading is not refused as truncated (41_frame_sequencer.md R93). -/
theorem not_rejectsAsTruncated_of_accepted {p : Params} {S : NamedSound} (h : startResult p S = (.loading, .none)) :
    ¬RejectsAsTruncated p S := by
  intro hrej
  obtain ⟨hst, -⟩ := (startOutcome_startResult p S).1 hrej
  rw [h] at hst
  cases hst

/-- In a state outside Loading and Playing the acceptance says nothing. -/
theorem latchedSoundAccepted_of_quiet {s : State} (hl : s.regs.st ≠ .loading) (hp : s.regs.st ≠ .playing) :
    LatchedSoundAccepted s :=
  fun hst => absurd hst (by simp [hl, hp])

/-- START that enters Loading latches a sound it accepts (41_frame_sequencer.md R93). -/
theorem latchedSoundAccepted_doStart (s : State) (r : Ref) : LatchedSoundAccepted (s.doStart r) := by
  rcases startResult_cases s.params (s.mem.sound r) with hres | hres | ⟨hres, -⟩
  · exact latchedSoundAccepted_of_quiet (by simp [hres]) (by simp [hres])
  · exact latchedSoundAccepted_of_quiet (by simp [hres]) (by simp [hres])
  · exact fun _ => ⟨s.mem.sound r, rfl, hres⟩

/-- Every outcome of a cycle keeps the acceptance of the latched sound: only START latches another, and Loading and
Playing are entered from each other or by START. -/
theorem CycleOutcome.keeps_accepted {l : InputLine} {s t : State} (ho : CycleOutcome l s t)
    (h : LatchedSoundAccepted s) : LatchedSoundAccepted t := by
  cases ho with
  | reset => exact latchedSoundAccepted_of_quiet (by simp [Regs.reset]) (by simp [Regs.reset])
  | held => exact h
  | started => exact latchedSoundAccepted_doStart s l.sndIn
  | cancelled => exact latchedSoundAccepted_of_quiet (by simp) (by simp)
  | waiting _ hst => exact fun _ => h (.inr hst)
  | ticked _ hst => exact fun _ => h (.inr hst)
  | fetched _ _ hst => exact fun _ => h (.inl hst)
  | terminal => exact latchedSoundAccepted_of_quiet (by simp) (by simp)
  | crossed _ _ hst => exact fun _ => h (.inl hst)
  | exhausted => exact latchedSoundAccepted_of_quiet (by simp) (by simp)

/-- From the invariant every cycle answers a next state: in Loading the cursor is in a buffer, and elsewhere nothing is
read (20_memory.md R39, 60_exceptions.md R126). -/
theorem runCycle_isNext {s : State} (h : Inv s) (l : InputLine) : ∃ t, runCycle l s = .next t := by
  cases hr : l.isReset with
  | true => exact ⟨_, runCycle_reset hr s⟩
  | false =>
    rw [runCycle_inputs hr]
    cases hst : s.regs.st with
    | idle => exact ⟨_, runInputs_idle hst l⟩
    | loading =>
      cases hc : l.isCancel with
      | true => exact ⟨_, runInputs_loading_cancel hst hc⟩
      | false =>
        obtain ⟨S, buf, hS, hb, -⟩ := h.cursorInSound (.inl hst)
        rw [runInputs_loading hst hc]
        exact loadAnswer_isNext hst hS hb
    | playing => exact ⟨_, runInputs_playing hst l⟩
    | stopped => exact ⟨_, runInputs_ended (.inl hst) l⟩
    | cancelled => exact ⟨_, runInputs_ended (.inr hst) l⟩

/-- From the invariant every step answers a next state. -/
theorem step_isNext {s : State} (h : Inv s) : ∃ t, step s = .next t := runCycle_isNext h.beginCycle _

/-- The reset state has the invariant, whatever the storage contents and the parameters are. -/
theorem inv_reset_with (p : Params) (m : Memory) : Inv { State.reset with params := p, mem := m } :=
  inv_of_idle rfl rfl rfl

/-- At reset no sound is latched, so none that START would refuse. -/
theorem latchedSoundAccepted_reset_with (p : Params) (m : Memory) :
    LatchedSoundAccepted { State.reset with params := p, mem := m } :=
  latchedSoundAccepted_of_quiet nofun nofun

/-- From the invariant and an accepted sound a run answers a next state after any number of cycles, which has both, and
the storage contents and the parameters the run began with. -/
theorem drive_keeps_inv (ins : Nat → InputLine) {s : State} (h : Inv s) (ha : LatchedSoundAccepted s) (n : Nat) :
    ∃ t, drive ins n s = .next t ∧ Inv t ∧ LatchedSoundAccepted t ∧ t.mem = s.mem ∧ t.params = s.params := by
  induction n with
  | zero => exact ⟨s, rfl, h, ha, rfl, rfl⟩
  | succ n ih =>
    obtain ⟨t, hdrive, hinv, hacc, hmem, hparams⟩ := ih
    have hdriven : Inv (t.driven (ins n)) := hinv.congr rfl rfl
    obtain ⟨u, hu⟩ := step_isNext hdriven
    have ho : CycleOutcome (ins n) (t.driven (ins n)).beginCycle u := step_outcome hu
    obtain ⟨hmem', hparams'⟩ := ho.keeps_mem_params
    exact ⟨u, (drive_succ_of hdrive).trans hu, ho.keeps_inv hdriven.beginCycle, ho.keeps_accepted hacc,
      hmem'.trans hmem, hparams'.trans hparams⟩

/-- Settles O51: the run from reset is a run from a state with the invariant. -/
theorem everyReachableStateHasInvariant : Obligations.EveryReachableStateHasInvariant := by
  unfold Obligations.EveryReachableStateHasInvariant
  exact fun ins p m n => drive_keeps_inv ins (inv_reset_with p m) (latchedSoundAccepted_reset_with p m) n

end Sys2Proof.Machine

namespace Sys2Proof.Machine

/-! ### The cursor fits finite register widths -/

/-- Where the sound was accepted and the cursor is in it, `bi` and `off` fit finite widths (10_state.md R17): START let in
at most `2^P_BI_W` buffers, none longer than `2^P_OFF_W - 1`. -/
theorem CursorInSound.fits_widths {s : State} {S : NamedSound} (hcur : CursorInSound s) (hS : s.sound? = some S)
    (hacc : ¬RejectsAsTruncated s.params S) :
    (∀ w, s.params.biW = some w → s.regs.bi < 2 ^ w) ∧ ∀ w, s.params.offW = some w → s.regs.off < 2 ^ w := by
  obtain ⟨S', buf, hS', hb, hoff⟩ := hcur
  obtain rfl : S = S' := Option.some.inj (hS.symm.trans hS')
  obtain ⟨hbi, -⟩ := List.getElem?_eq_some_iff.1 hb
  constructor
  · intro w hw
    have hnbuf : ¬2 ^ w < S.length := fun hlt => hacc (.inr (.inl ⟨w, hw, hlt⟩))
    omega
  · intro w hw
    have hlen : ¬2 ^ w - 1 < buf.length :=
      fun hlt => hacc (.inr (.inr ⟨w, hw, buf, List.mem_of_getElem? hb, hlt⟩))
    have hpos : 0 < 2 ^ w := Nat.two_pow_pos w
    omega

/-- Settles O22: an accepted sound exceeds no finite width, and the cursor is in it. -/
theorem cursorFitsItsWidths : Obligations.CursorFitsItsWidths := by
  unfold Obligations.CursorFitsItsWidths
  intro s h ha hst
  obtain ⟨S, hS, hres⟩ := ha hst
  have hcur : CursorInSound s := h.cursorInSound hst
  exact hcur.fits_widths hS (not_rejectsAsTruncated_of_accepted hres)

/-! ### Reset -/

/-- Settles O17: a cycle with reset, whatever else is driven, and RESET itself write the reset values. -/
theorem resetOverridesEveryInput : Obligations.ResetOverridesEveryInput := by
  unfold Obligations.ResetOverridesEveryInput
  constructor
  · intro s l hl
    have hr : l.isReset = true := by simp [InputLine.isReset, hl]
    exact ⟨_, (step_driven s l).trans (runCycle_reset hr _), rfl, rfl, rfl, rfl, rfl⟩
  · exact fun s => ⟨s.resetRegs, rfl, rfl, rfl, rfl, rfl, rfl, rfl, rfl⟩

/-! ### Which row writes which register -/

/-- What an instruction can make of the state `s`, as `exec_cases` has it, with a name for each case. -/
inductive ExecOutcome (i : Instr) (s : State) : State → Prop
  /-- nothing -/
  | same : ExecOutcome i s s
  /-- DECODE (40_frame_decoder.md R66) -/
  | decode (w : Word32) (hi : i = .decode w) : ExecOutcome i s (s.withDecoded (decodeWord w))
  /-- START where it is acted on (41_frame_sequencer.md R93) -/
  | start (r : Ref) (hi : i = .start r) : ExecOutcome i s (s.doStart r)
  /-- CANCEL in Idle and Loading (R95) -/
  | cancel (hi : i = .cancel) : ExecOutcome i s s.enterCancelled
  /-- CANCEL in Playing (R95) -/
  | latch (hi : i = .cancel) : ExecOutcome i s (s.withRegs { s.regs with cp := true })
  /-- RESET (70_reset_and_hazards.md R146) -/
  | reset (hi : i = .reset) : ExecOutcome i s s.resetRegs
  /-- TICK and WAIT in Playing (R104, R105) -/
  | wait (hi : i = .tick ∨ i = .wait) (hst : s.regs.st = .playing) : ExecOutcome i s s.waitTick
  /-- LOAD_CROSS (R101) -/
  | cross (hi : i = .loadCross) (hst : s.regs.st = .loading) : ExecOutcome i s s.cross
  /-- FRAME_TERMINAL and LOAD_TERMINAL (R100) -/
  | terminal (hi : (∃ f, i = .frameTerminal f) ∨ i = .loadTerminal) (hst : s.regs.st = .loading) :
      ExecOutcome i s (s.enterStopped .terminal)
  /-- LOAD_EXHAUST (R102) -/
  | exhaust (hi : i = .loadExhaust) (hst : s.regs.st = .loading) : ExecOutcome i s (s.enterStopped .exhausted)
  /-- FRAME_NOISE and FRAME_VOICED (R99, R115) -/
  | dispatch (f : SoundFrame) (hi : ∃ g, i = .frameNoise g ∨ i = .frameVoiced g) (hst : s.regs.st = .loading) :
      ExecOutcome i s (s.dispatchFrame f)
  /-- LOAD_FETCH (R99) -/
  | fetch (w : Word32) (hi : i = .loadFetch) (hst : s.regs.st = .loading) : ExecOutcome i s (s.fetched w)

/-- The inversion of an instruction, case by case of `exec_cases`. -/
theorem exec_outcome {i : Instr} {s t : State} (h : exec i s = .next t) : ExecOutcome i s t := by
  rcases exec_cases h with rfl | ⟨w, hi, rfl⟩ | ⟨r, hi, rfl⟩ | ⟨hi, rfl | rfl⟩ | ⟨hi, rfl⟩ | ⟨hi, hst, rfl⟩
    | ⟨hi, hst, rfl⟩ | ⟨hst, ⟨hi, rfl⟩ | ⟨hi, rfl⟩⟩ | ⟨hst, ⟨hi, f, rfl⟩ | ⟨hi, w, rfl⟩⟩
  · exact .same
  · exact .decode w hi
  · exact .start r hi
  · exact .cancel hi
  · exact .latch hi
  · exact .reset hi
  · exact .wait hi hst
  · exact .cross hi hst
  · exact .terminal hi hst
  · exact .exhaust hi hst
  · exact .dispatch f hi hst
  · exact .fetch w hi hst

/-- Settles O39: of all an instruction can do, only START and reset touch `snd`. -/
theorem sndWrittenOnlyByStartAndReset : Obligations.SndWrittenOnlyByStartAndReset := by
  unfold Obligations.SndWrittenOnlyByStartAndReset
  intro i s t h
  cases exec_outcome h with
  | start r hi => exact .inr (.inr ⟨r, hi, rfl⟩)
  | reset hi => exact .inr (.inl ⟨hi, rfl⟩)
  | _ => exact .inl rfl

/-- Settles O40: of all an instruction can do, only START, reset, a dispatch and a crossing touch the cursor. -/
theorem cursorMovesOnlyInThreeWays : Obligations.CursorMovesOnlyInThreeWays := by
  unfold Obligations.CursorMovesOnlyInThreeWays
  intro i s t h
  cases exec_outcome h with
  | start r hi => exact .inr (.inl ⟨.inl ⟨r, hi⟩, rfl, rfl⟩)
  | reset hi => exact .inr (.inl ⟨.inr hi, rfl, rfl⟩)
  | dispatch f _ hst => exact .inr (.inr (.inl ⟨hst, rfl, rfl, rfl, rfl⟩))
  | fetch w _ hst => exact .inr (.inr (.inl ⟨hst, rfl, rfl, rfl, rfl⟩))
  | cross hi hst => exact .inr (.inr (.inr ⟨hi, hst, rfl, rfl⟩))
  | _ => exact .inl ⟨rfl, rfl⟩

/-- START clears `reason`, or enters Stopped with EMPTY or TRUNCATED (41_frame_sequencer.md R93). -/
theorem doStart_reason (s : State) (r : Ref) :
    (s.doStart r).regs.reason = .none
      ∨ ((s.doStart r).regs.st = .stopped
        ∧ ((s.doStart r).regs.reason = .empty ∨ (s.doStart r).regs.reason = .truncated)) := by
  rcases startResult_cases s.params (s.mem.sound r) with hres | hres | ⟨hres, -⟩ <;> simp [hres]

/-- Settles O41: of all an instruction can do, what touches `cp` and `reason`. -/
theorem flagsWrittenOnlyAsStated : Obligations.FlagsWrittenOnlyAsStated := by
  unfold Obligations.FlagsWrittenOnlyAsStated
  intro i s t h
  cases exec_outcome h with
  | start r hi =>
    refine ⟨.inr (.inr ⟨.inl ⟨r, hi⟩, rfl⟩), .inr ?_⟩
    rcases doStart_reason s r with hclear | ⟨hstop, hwhy⟩
    · exact .inl ⟨.inl ⟨r, hi⟩, hclear⟩
    · exact .inr ⟨hstop, .inl ⟨⟨r, hi⟩, hwhy⟩⟩
  | cancel hi => exact ⟨.inr (.inl ⟨hi, rfl⟩), .inl rfl⟩
  | latch hi => exact ⟨.inr (.inl ⟨hi, rfl⟩), .inl rfl⟩
  | reset hi => exact ⟨.inr (.inr ⟨.inr hi, rfl⟩), .inr (.inl ⟨.inr hi, rfl⟩)⟩
  | terminal hi => exact ⟨.inl rfl, .inr (.inr ⟨rfl, .inr (.inl ⟨hi, rfl⟩)⟩)⟩
  | exhaust hi => exact ⟨.inl rfl, .inr (.inr ⟨rfl, .inr (.inr ⟨hi, rfl⟩)⟩)⟩
  | _ => exact ⟨.inl rfl, .inl rfl⟩

/-- The writers of `cnt` (10_state.md R19): START and reset, a dispatch from Loading, a tick of a wait. -/
theorem ExecOutcome.cnt_cases {i : Instr} {s t : State} (h : ExecOutcome i s t) :
    t.regs.cnt = s.regs.cnt ∨ (((∃ r, i = .start r) ∨ i = .reset) ∧ t.regs.cnt = 0#4)
      ∨ (s.regs.st = .loading ∧ ∃ f, t.port = some f ∧ t.regs.cnt = BitVec.ofNat 4 (2 ^ f.fd.toNat))
      ∨ ((i = .tick ∨ i = .wait) ∧ s.regs.st = .playing ∧ t.regs.cnt = s.regs.cnt - 1#4) := by
  cases h with
  | start r hi => exact .inr (.inl ⟨.inl ⟨r, hi⟩, rfl⟩)
  | reset hi => exact .inr (.inl ⟨.inr hi, rfl⟩)
  | dispatch f _ hst => exact .inr (.inr (.inl ⟨hst, f, rfl, rfl⟩))
  | fetch w _ hst => exact .inr (.inr (.inl ⟨hst, decodeWord w, rfl, rfl⟩))
  | wait hi hst => exact .inr (.inr (.inr ⟨hi, hst, rfl⟩))
  | _ => exact .inl rfl

/-- DECODE, NOP, RSVD and LOAD_CROSS keep `st` (10_state.md R15). -/
theorem exec_keeps_st {i : Instr} {s t : State} (h : exec i s = .next t)
    (hi : (∃ w, i = .decode w) ∨ i = .nop ∨ i = .rsvd ∨ i = .loadCross) : t.regs.st = s.regs.st := by
  rcases hi with ⟨w, rfl⟩ | rfl | rfl | rfl
  · cases h
    rfl
  · cases h
    rfl
  · cases h
    rfl
  · cases exec_outcome h with
    | same => rfl
    | cross => rfl
    | _ => simp_all

/-- TICK and WAIT in Playing are one tick of the wait (41_frame_sequencer.md R104). -/
theorem exec_tick_wait_playing {i : Instr} {s : State} (hi : i = .tick ∨ i = .wait) (hst : s.regs.st = .playing) :
    exec i s = .next s.waitTick := by
  rcases hi with rfl | rfl <;> simp [exec, execTick, execWait, hst]

/-- A tick at `cnt = 0`, which no run reaches, wraps `cnt` and changes nothing else (log entry 12). -/
theorem waitTick_of_cnt_zero {s : State} (hcnt : s.regs.cnt = 0#4) :
    s.waitTick = { s with regs := { s.regs with cnt := 15#4 } } := by
  simp [State.waitTick, State.withRegs, hcnt]

/-- Settles O42: the writers of `cnt`, the rows that keep `st`, and the wrap at `cnt = 0`. -/
theorem cntAndStKeptByOtherRows : Obligations.CntAndStKeptByOtherRows := by
  unfold Obligations.CntAndStKeptByOtherRows
  intro i s t h
  refine ⟨(exec_outcome h).cnt_cases, exec_keeps_st h, fun hi hst hcnt => ?_⟩
  have ht : t = s.waitTick := Host.Outcome.next.inj (h.symm.trans (exec_tick_wait_playing hi hst))
  exact ht.trans (waitTick_of_cnt_zero hcnt)

/-! ### The dispatch port -/

/-- The cycle that fetches a frame to dispatch: Loading without reset and CANCEL, a whole non-terminal word at the cursor
(41_frame_sequencer.md R99). -/
theorem runCycle_fetched {l : InputLine} {s : State} {S : NamedSound} {buf : SoundBuffer} {w : Word32}
    (hr : l.isReset = false) (hc : l.isCancel = false) (hst : s.regs.st = .loading) (hS : s.sound? = some S)
    (hb : S[s.regs.bi]? = some buf) (hw : readWord buf s.regs.off = some w) (hn : isTerminal s.params w = false) :
    runCycle l s = .next (s.fetched w) := by
  rw [runCycle_inputs hr, runInputs_loading hst hc, loadAnswer, loadCase_inBuffer hst hS hb, loadCaseIn_read hw]
  simp [hn]

/-- A cycle that begins with the port clear ends with a frame on it exactly where its LOAD step fetches a frame to
dispatch (10_state.md R23, 41_frame_sequencer.md R99). -/
theorem runCycle_port_eq_some_iff {l : InputLine} {s t : State} (h : runCycle l s = .next t) (hport : s.port = none)
    (f : SoundFrame) :
    t.port = some f ↔
      l.isReset = false ∧ s.regs.st = .loading ∧ l.isCancel = false
        ∧ ∃ S buf w, s.sound? = some S ∧ S[s.regs.bi]? = some buf ∧ readWord buf s.regs.off = some w
            ∧ isTerminal s.params w = false ∧ f = decodeWord w := by
  constructor
  · intro hf
    cases runCycle_outcome h with
    | fetched hr hc hst hS hb hw hn =>
      exact ⟨hr, hst, hc, _, _, _, hS, hb, hw, hn, (Option.some.inj hf).symm⟩
    | _ => simp [hport] at hf
  · rintro ⟨hr, hst, hc, S, buf, w, hS, hb, hw, hn, rfl⟩
    obtain rfl : s.fetched w = t := Host.Outcome.next.inj ((runCycle_fetched hr hc hst hS hb hw hn).symm.trans h)
    rfl

/-- `dv` is 1 exactly when the port holds a frame. -/
theorem dv_eq_one_iff (s : State) : s.dv = 1#1 ↔ s.port.isSome = true := by
  cases hport : s.port <;> simp [State.dv, hport]

/-- Settles O48: a step is a cycle that begins with the port clear. -/
theorem dvExactlyInFetchCycles : Obligations.DvExactlyInFetchCycles := by
  unfold Obligations.DvExactlyInFetchCycles
  exact fun s t l h => ⟨dv_eq_one_iff t, runCycle_port_eq_some_iff (s := (s.driven l).beginCycle) h rfl⟩

/-! ### STATUS and the reset state -/

/-- Settles O15: each slice of STATUS is the code put there, and the codes are those written out. -/
theorem statusPortLayout : Obligations.StatusPortLayout := by
  unfold Obligations.StatusPortLayout
  refine ⟨fun s => ?_, rfl, rfl, rfl, rfl, rfl, rfl, rfl, rfl, rfl, rfl⟩
  have slices : ∀ (c : BitVec 1) (r q : BitVec 3), (c ++ r ++ q).extractLsb' 0 3 = q
      ∧ (c ++ r ++ q).extractLsb' 3 3 = r ∧ (c ++ r ++ q).extractLsb' 6 1 = c := by decide
  exact slices (BitVec.ofBool s.regs.cp) s.regs.reason.code s.regs.st.code

/-- Settles O16: the reset state, field by field. -/
theorem resetValues : Obligations.ResetValues := ⟨rfl, rfl, rfl, rfl, rfl, rfl, rfl, rfl⟩

/-- Settles O18: the invariant at reset, and the model's three choices. -/
theorem invariantHoldsAtReset : Obligations.InvariantHoldsAtReset :=
  ⟨inv_reset_with Params.default [], latchedSoundAccepted_reset_with Params.default [], Memory.wf_nil, by decide⟩

end Sys2Proof.Machine

/-! ## Storage: the read of a word, and that nothing writes (20_memory.md) -/

namespace Sys2Proof.Machine

/-! ### The read of a word -/

/-- A frame word is its four bytes as digits in base 256, the first byte most significant (20_memory.md R34). -/
theorem wordOfBytes_toNat (b0 b1 b2 b3 : Byte) :
    (wordOfBytes b0 b1 b2 b3).toNat = b0.toNat * 2 ^ 24 + b1.toNat * 2 ^ 16 + b2.toNat * 2 ^ 8 + b3.toNat := by
  unfold wordOfBytes
  rw [toNat_append_add, toNat_append_add, toNat_append_add]
  omega

/-- The word at an offset is made of the four bytes that stand from there on (20_memory.md R33). -/
theorem readWord_of_bytes {buf : SoundBuffer} {o : Nat} {b0 b1 b2 b3 : Byte} (h0 : buf[o]? = some b0)
    (h1 : buf[o + 1]? = some b1) (h2 : buf[o + 2]? = some b2) (h3 : buf[o + 3]? = some b3) :
    readWord buf o = some (wordOfBytes b0 b1 b2 b3) := by
  have hlast : o + 3 < buf.length := (List.getElem?_eq_some_iff.1 h3).1
  obtain ⟨c0, c1, c2, c3, rest, hdrop, hread⟩ := readWord_of_le buf o hlast
  have hbyte (i : Nat) : buf[o + i]? = (c0 :: c1 :: c2 :: c3 :: rest)[i]? := by rw [← hdrop, List.getElem?_drop]
  obtain rfl : c0 = b0 := Option.some.inj ((hbyte 0).symm.trans h0)
  obtain rfl : c1 = b1 := Option.some.inj ((hbyte 1).symm.trans h1)
  obtain rfl : c2 = b2 := Option.some.inj ((hbyte 2).symm.trans h2)
  obtain rfl : c3 = b3 := Option.some.inj ((hbyte 3).symm.trans h3)
  exact hread

/-- Settles O12: the word read is that of the four bytes, and its number is their base-256 value. -/
theorem storageReadIsBigEndian : Obligations.StorageReadIsBigEndian := by
  unfold Obligations.StorageReadIsBigEndian
  refine fun buf o => ⟨fun b0 b1 b2 b3 h0 h1 h2 h3 => ?_, readWord_of_lt buf o⟩
  exact ⟨wordOfBytes b0 b1 b2 b3, readWord_of_bytes h0 h1 h2 h3, wordOfBytes_toNat b0 b1 b2 b3⟩

/-! ### Nothing writes storage -/

/-- Settles O13: no outcome of a cycle changes storage, so neither its form nor any byte of it. -/
theorem stepLeavesStorage : Obligations.StepLeavesStorage := by
  unfold Obligations.StepLeavesStorage
  intro s t hstep
  obtain ⟨hmem, hparams⟩ : t.mem = s.mem ∧ t.params = s.params := (step_outcome hstep).keeps_mem_params
  rw [hmem]
  exact ⟨rfl, hparams, id, fun _ _ _ => rfl⟩

/-- Nothing an instruction can do changes storage, the parameters, the inputs to come or the count of cycles. -/
theorem ExecOutcome.keeps_storage_and_inputs {i : Instr} {s t : State} (h : ExecOutcome i s t) :
    t.mem = s.mem ∧ t.params = s.params ∧ t.script = s.script ∧ t.cycle = s.cycle := by
  cases h <;> exact ⟨rfl, rfl, rfl, rfl⟩

/-- Settles O14: nothing an instruction can do changes storage, so no byte of it either. -/
theorem instrsLeaveStorageAndInputs : Obligations.InstrsLeaveStorageAndInputs := by
  unfold Obligations.InstrsLeaveStorageAndInputs
  intro i s t h
  obtain ⟨hmem, hparams, hscript, hcycle⟩ := (exec_outcome h).keeps_storage_and_inputs
  rw [hmem]
  exact ⟨rfl, hparams, hscript, hcycle, fun _ _ _ => rfl⟩

/-! ### The words a LOAD step reads -/

/-- The word a LOAD case names is the one at the offset (41_frame_sequencer.md R98). -/
theorem readWord_of_loadCaseIn {p : Params} {n bi off : Nat} {buf : SoundBuffer} {w : Word32}
    (h : loadCaseIn p n bi off buf = .fetch w ∨ loadCaseIn p n bi off buf = .terminal w) :
    readWord buf off = some w := by
  rcases loadCaseIn_cases p n bi off buf with ⟨v, hv, -, hc⟩ | ⟨-, hc⟩
  · obtain rfl : v = w := by rcases hc with ⟨-, hc⟩ | ⟨-, hc⟩ <;> simpa [hc] using h
    exact hv
  · rcases hc with ⟨-, hc⟩ | ⟨-, hc⟩ <;> simp [hc] at h

/-- A word that a LOAD step reads is read in Loading, and is the one at the cursor in a buffer of the latched sound. -/
theorem readWord_of_loadCase {s : State} {w : Word32}
    (h : s.loadCase = .ok (.fetch w) ∨ s.loadCase = .ok (.terminal w)) :
    s.regs.st = .loading ∧ ∃ S buf, s.sound? = some S ∧ S[s.regs.bi]? = some buf
      ∧ readWord buf s.regs.off = some w := by
  rcases h with h | h <;> obtain ⟨hst, S, buf, hS, hb, hc⟩ := loadCase_eq_ok h nofun
  · exact ⟨hst, S, buf, hS, hb, readWord_of_loadCaseIn (.inl hc.symm)⟩
  · exact ⟨hst, S, buf, hS, hb, readWord_of_loadCaseIn (.inr hc.symm)⟩

/-- In an accepted sound every buffer is a whole number of frames (20_memory.md R35). -/
theorem length_mod_four_of_accepted {p : Params} {S : NamedSound} {buf : SoundBuffer}
    (hacc : startResult p S = (.loading, .none)) (hbuf : buf ∈ S) : buf.length % 4 = 0 := by
  by_contra hlen
  exact not_rejectsAsTruncated_of_accepted hacc (.inl ⟨buf, hbuf, hlen⟩)

/-- Settles O21: the buffer's length by the acceptance of the sound, the offset by the invariant, and the read's extent
by `readWord_isSome`. -/
theorem readsAreAlignedAndWhole : Obligations.ReadsAreAlignedAndWhole := by
  unfold Obligations.ReadsAreAlignedAndWhole
  intro s hinv hacc
  refine ⟨fun t hstep => (step_outcome hstep).keeps_accepted hacc, fun w hread => ?_⟩
  obtain ⟨hst, S, buf, hS, hb, hw⟩ := readWord_of_loadCase hread
  obtain ⟨S', hS', hres⟩ := hacc (.inl hst)
  obtain rfl : S = S' := Option.some.inj (hS.symm.trans hS')
  have hlen : buf.length % 4 = 0 := length_mod_four_of_accepted hres (List.mem_of_getElem? hb)
  have hwhole : s.regs.off + 4 ≤ buf.length := (readWord_isSome buf s.regs.off).1 (by rw [hw]; rfl)
  exact ⟨S, buf, hS, hb, hlen, hinv.aligned, hwhole, hw⟩

end Sys2Proof.Machine

/-! ## Encoding: the fields of a frame word, its class and its bundle, and the `HIN` slots (30_encoding.md) -/

namespace Sys2Proof

/-! ### Concatenation -/

/-- Two concatenations cut at the same place are equal exactly when both parts are. -/
theorem append_inj_iff {m n : Nat} {x x' : BitVec m} {y y' : BitVec n} :
    x ++ y = x' ++ y' ↔ x = x' ∧ y = y' := by
  refine ⟨fun h => ⟨?_, ?_⟩, by rintro ⟨rfl, rfl⟩; rfl⟩
  · simpa only [BitVec.extractLsb'_append_eq_left] using congrArg (BitVec.extractLsb' n m) h
  · simpa only [BitVec.extractLsb'_append_eq_right] using congrArg (BitVec.extractLsb' 0 n) h

/-- A field cut from a concatenation above its low part is cut from the high part. -/
theorem extract_append_high {m k : Nat} (x : BitVec m) (y : BitVec k) (lo n : Nat) :
    (x ++ y).extractLsb' (k + lo) n = x.extractLsb' lo n := by
  rw [BitVec.extractLsb'_append_eq_of_le (Nat.le_add_right k lo), Nat.add_sub_cancel_left]

/-! ### The bytes of a frame word (20_memory.md R34) -/

section
variable (b0 b1 b2 b3 : Byte)

/-- Bits of the first byte of a frame word. -/
theorem extract_wordOfBytes_byte0 (lo n : Nat) :
    (wordOfBytes b0 b1 b2 b3).extractLsb' (24 + lo) n = b0.extractLsb' lo n := by
  have hlo : 24 + lo = 8 + (8 + (8 + lo)) := by omega
  rw [hlo, wordOfBytes, extract_append_high, extract_append_high, extract_append_high]

/-- Bits of the second byte of a frame word. -/
theorem extract_wordOfBytes_byte1 (lo n : Nat) (h : lo + n ≤ 8) :
    (wordOfBytes b0 b1 b2 b3).extractLsb' (16 + lo) n = b1.extractLsb' lo n := by
  have hlo : 16 + lo = 8 + (8 + lo) := by omega
  rw [hlo, wordOfBytes, extract_append_high, extract_append_high, BitVec.extractLsb'_append_eq_of_add_le h]

/-- Bits of the third byte of a frame word. -/
theorem extract_wordOfBytes_byte2 (lo n : Nat) (h : lo + n ≤ 8) :
    (wordOfBytes b0 b1 b2 b3).extractLsb' (8 + lo) n = b2.extractLsb' lo n := by
  rw [wordOfBytes, extract_append_high, BitVec.extractLsb'_append_eq_of_add_le h]

/-- Bits of the last byte of a frame word. -/
theorem extract_wordOfBytes_byte3 (lo n : Nat) (h : lo + n ≤ 8) :
    (wordOfBytes b0 b1 b2 b3).extractLsb' lo n = b3.extractLsb' lo n :=
  BitVec.extractLsb'_append_eq_of_add_le h

/-- AMPL is the one field that spans two bytes: the low three bits of the third, then the high bit of the last
(30_encoding.md R48). -/
theorem ampl_wordOfBytes :
    (decodeWord (wordOfBytes b0 b1 b2 b3)).ampl = b2.extractLsb' 0 3 ++ b3.extractLsb' 7 1 := by
  rw [← extract_wordOfBytes_byte2 b0 b1 b2 b3 0 3 (by decide), ← extract_wordOfBytes_byte3 b0 b1 b2 b3 7 1 (by decide)]
  exact (extract_append_extract _ 7 1 3 8 rfl).symm

end

/-- The number of the amplitude index by shift and mask of the two bytes (30_encoding.md R48). -/
theorem toNat_ampl_of_bytes (b2 b3 : Byte) :
    (b2.extractLsb' 0 3 ++ b3.extractLsb' 7 1).toNat = (b2 &&& 7#8).toNat * 2 + (b3 >>> 7).toNat := by
  have hmask : (b2 &&& 7#8).toNat = b2.toNat % 2 ^ 3 := by
    rw [BitVec.toNat_and]
    exact Nat.and_two_pow_sub_one_eq_mod b2.toNat 3
  have hshift : (b3 >>> 7).toNat = b3.toNat / 2 ^ 7 := by rw [BitVec.toNat_ushiftRight, Nat.shiftRight_eq_div_pow]
  rw [toNat_append_add, toNat_extract, toNat_extract, hmask, hshift]
  omega

/-- Settles O2: every field but AMPL is a slice of one byte of the word. -/
theorem fieldsByByteBits : Obligations.FieldsByByteBits := by
  unfold Obligations.FieldsByByteBits
  intro b0 b1 b2 b3
  have byte0 := extract_wordOfBytes_byte0 b0 b1 b2 b3
  have byte1 := extract_wordOfBytes_byte1 b0 b1 b2 b3
  have byte2 := extract_wordOfBytes_byte2 b0 b1 b2 b3
  have byte3 := extract_wordOfBytes_byte3 b0 b1 b2 b3
  have hampl := ampl_wordOfBytes b0 b1 b2 b3
  exact ⟨byte0 6 2, byte0 4 2, byte0 2 2, byte0 0 2, byte1 5 3 (by decide), byte1 0 5 (by decide),
    byte2 3 5 (by decide), hampl, (congrArg BitVec.toNat hampl).trans (toNat_ampl_of_bytes b2 b3),
    byte3 5 2 (by decide), congrArg decodePI (byte3 0 5 (by decide))⟩

/-! ### The PI code (30_encoding.md R50) -/

/-- Every code but the noise sentinel decodes to the pitch increment of its two's-complement value. -/
theorem decodePI_of_ne {p : BitVec 5} (h : p ≠ 0b10000#5) :
    ∃ d : PitchDelta, decodePI p = .pitch d ∧ d.val = p.toInt :=
  ⟨⟨p.toInt, pitch_in_range p h⟩, dif_neg h, rfl⟩

/-- Noise is decoded from the sentinel only. -/
theorem decodePI_eq_noise_iff (p : BitVec 5) : decodePI p = .noise ↔ p = 0b10000#5 := by
  refine ⟨fun h => ?_, by rintro rfl; rfl⟩
  by_contra hne
  obtain ⟨d, hd, -⟩ := decodePI_of_ne hne
  exact nomatch hd.symm.trans h

/-- Settles O3: a two's-complement value is the unsigned one, less 32 where the sign bit is set. -/
theorem piIsTwosComplementOrNoise : Obligations.PiIsTwosComplementOrNoise := by
  unfold Obligations.PiIsTwosComplementOrNoise
  refine fun p => ⟨(decodePI_eq_noise_iff p).2, fun hne => ?_⟩
  obtain ⟨d, hd, hval⟩ := decodePI_of_ne hne
  exact ⟨d, hd, hval.trans (BitVec.toInt_eq_msb_cond p)⟩

/-! ### The 27 bits above PI -/

/-- The fields of a frame above PI, in the order of 30_encoding.md R47: what ENCODE and the dispatch bundle have in
common. -/
def frameBody (f : SoundFrame) : BitVec 27 :=
  f.bw1 ++ f.bw2 ++ f.bw3 ++ f.bw4 ++ f.fm3 ++ f.fm2 ++ f.fm1 ++ f.ampl ++ f.fd

/-- ENCODE puts the PI code below the body. -/
theorem encodeFrame_eq (f : SoundFrame) : encodeFrame f = frameBody f ++ encodePI f.pi := rfl

/-- The body of a decoded word is the word's bits 31 to 5. -/
theorem frameBody_decodeWord (w : Word32) : frameBody (decodeWord w) = w.extractLsb' 5 27 := by
  simp only [frameBody, decodeWord]
  rw [extract_append_extract w 28 2 2 30 rfl, extract_append_extract w 26 2 4 28 rfl,
    extract_append_extract w 24 2 6 26 rfl, extract_append_extract w 21 3 8 24 rfl,
    extract_append_extract w 16 5 11 21 rfl, extract_append_extract w 11 5 16 16 rfl,
    extract_append_extract w 7 4 21 11 rfl, extract_append_extract w 5 2 25 7 rfl]

/-- Equal bodies are equal fields. -/
theorem frameBody_inj (f g : SoundFrame) :
    frameBody f = frameBody g ↔
      f.bw1 = g.bw1 ∧ f.bw2 = g.bw2 ∧ f.bw3 = g.bw3 ∧ f.bw4 = g.bw4 ∧ f.fm3 = g.fm3 ∧ f.fm2 = g.fm2
        ∧ f.fm1 = g.fm1 ∧ f.ampl = g.ampl ∧ f.fd = g.fd := by
  rw [frameBody, frameBody, append_inj_iff, append_inj_iff, append_inj_iff, append_inj_iff, append_inj_iff,
    append_inj_iff, append_inj_iff, append_inj_iff]
  simp only [and_assoc]

/-- Encoding a decoded word gives it back (40_frame_decoder.md R73). -/
theorem encodeFrame_decodeWord (w : Word32) : encodeFrame (decodeWord w) = w := by
  rw [encodeFrame_eq, frameBody_decodeWord, decodeWord, encodePI_decodePI]
  exact BitVec.extractLsb'_append_extractLsb' (w := 27)

/-! ### Frame classes (30_encoding.md R55, R56) -/

/-- The comparator as an equation of words. -/
theorem isTerminal_iff (p : Params) (w : Word32) : isTerminal p w = true ↔ w &&& p.termMask = p.termMatch := beq_iff_eq

/-- Masking by the default comparator's mask clears PI and keeps the rest. -/
theorem and_default_termMask (w : Word32) : w &&& Params.default.termMask = w.extractLsb' 5 27 ++ 0#5 := by
  have hw : w = w.extractLsb' 5 27 ++ w.extractLsb' 0 5 := 
    (BitVec.extractLsb'_append_extractLsb' (w := 27) (len := 5)).symm
  have hmask : Params.default.termMask = BitVec.allOnes 27 ++ 0#5 := by decide
  calc w &&& Params.default.termMask
      = (w.extractLsb' 5 27 ++ w.extractLsb' 0 5) &&& (BitVec.allOnes 27 ++ 0#5) := by rw [← hw, hmask]
    _ = w.extractLsb' 5 27 ++ 0#5 := by rw [BitVec.and_append, BitVec.and_allOnes, BitVec.and_zero]

/-- With the default comparator a word is terminal exactly when its bits above PI are zero. -/
theorem isTerminal_default_iff (w : Word32) : isTerminal Params.default w = true ↔ w.extractLsb' 5 27 = 0#27 := by
  rw [isTerminal_iff, and_default_termMask]
  exact BitVec.append_left_inj (s₂ := 0#27) 0#5

/-- The words whose bits above PI are zero are those below 32. -/
theorem extract_above_pi_eq_zero_iff (w : Word32) : w.extractLsb' 5 27 = 0#27 ↔ w.toNat ≤ 0x1F := by
  have hlt : w.toNat < 2 ^ 32 := w.isLt
  rw [← BitVec.toNat_inj, toNat_extract, BitVec.toNat_ofNat]
  omega

/-- Settles O8: with the default parameters, a terminal word is one whose bits above PI are those of the zero word. -/
theorem defaultTerminalWords : Obligations.DefaultTerminalWords := by
  unfold Obligations.DefaultTerminalWords
  refine ⟨isTerminal_iff, fun w => ⟨?_, ?_⟩⟩
  · exact (isTerminal_default_iff w).trans (extract_above_pi_eq_zero_iff w)
  · rw [isTerminal_default_iff, ← frameBody_decodeWord]
    exact frameBody_inj (decodeWord w) (decodeWord 0#32)

/-- A word the comparator accepts stands for FRAME_TERMINAL. -/
theorem decodeFrame_terminal {p : Params} {w : Word32} (ht : isTerminal p w = true) :
    decodeFrame p w = .frameTerminal (decodeWord w) := by
  simp [decodeFrame, classOf, ht]

/-- A non-terminal word with the noise sentinel stands for FRAME_NOISE. -/
theorem decodeFrame_noise {p : Params} {w : Word32} (ht : isTerminal p w = false)
    (hpi : w.extractLsb' 0 5 = 0b10000#5) : decodeFrame p w = .frameNoise (decodeWord w) := by
  simp [decodeFrame, classOf, ht, hpi]

/-- Every other word stands for FRAME_VOICED. -/
theorem decodeFrame_voiced {p : Params} {w : Word32} (ht : isTerminal p w = false)
    (hpi : w.extractLsb' 0 5 ≠ 0b10000#5) : decodeFrame p w = .frameVoiced (decodeWord w) := by
  simp [decodeFrame, classOf, ht, hpi]

/-- A decoded word is noise exactly when its low five bits are the sentinel. -/
theorem isNoise_decodeWord (w : Word32) : isNoise (decodeWord w) = true ↔ w.extractLsb' 0 5 = 0b10000#5 :=
  beq_iff_eq.trans (decodePI_eq_noise_iff _)

/-- The instruction a word stands for is well-formed: what it encodes to is the word, and so of its class. -/
theorem wellFormed_decodeFrame (p : Params) (w : Word32) : WellFormed p (decodeFrame p w) = true := by
  cases ht : isTerminal p w with
  | true => rw [decodeFrame_terminal ht, WellFormed, encodeFrame_decodeWord, ht]
  | false =>
    by_cases hpi : w.extractLsb' 0 5 = 0b10000#5
    · rw [decodeFrame_noise ht hpi, WellFormed, encodeFrame_decodeWord, ht, (isNoise_decodeWord w).2 hpi]
      rfl
    · have hvoiced : isNoise (decodeWord w) = false := Bool.eq_false_iff.2 (mt (isNoise_decodeWord w).1 hpi)
      rw [decodeFrame_voiced ht hpi, WellFormed, encodeFrame_decodeWord, ht, hvoiced]
      rfl

/-- Settles O7: one clause for each class, and well-formedness by `wellFormed_decodeFrame`. -/
theorem everyWordHasItsClass : Obligations.EveryWordHasItsClass := by
  unfold Obligations.EveryWordHasItsClass
  refine fun p w => ⟨decodeFrame_terminal, fun ht hpi => ?_, fun ht hpi => ?_, wellFormed_decodeFrame p w⟩
  · exact ⟨decodeFrame_noise ht hpi, (decodePI_eq_noise_iff _).2 hpi⟩
  · exact ⟨decodeFrame_voiced ht hpi, decodePI_of_ne hpi⟩

/-! ### The dispatch bundle (30_encoding.md R60) -/

/-- The bundle is the noise bit, the body and the pitch code. -/
theorem frameBundle_eq (f : SoundFrame) :
    frameBundle f = noiseSignal f.pi ++ (frameBody f ++ pitchSignal f.pi) := by
  refine BitVec.eq_of_toNat_eq ?_
  simp only [frameBundle, frameBody, toNat_append_add]
  ring

/-- The noise bit and the pitch code determine the PI value. -/
theorem pi_eq_of_signals {x y : PitchOrNoise} (hnoise : noiseSignal x = noiseSignal y)
    (hpitch : pitchSignal x = pitchSignal y) : x = y := by
  match x, y with
  | .noise, .noise => rfl
  | .pitch d, .pitch e =>
    rw [← decodePI_encodePI (.pitch d), ← decodePI_encodePI (.pitch e)]
    exact congrArg decodePI hpitch
  | .noise, .pitch _ => exact absurd hnoise (by simp [noiseSignal])
  | .pitch _, .noise => exact absurd hnoise (by simp [noiseSignal])

/-- The bundle of a frame with a pitch increment is 0 and the encoded word. -/
theorem frameBundle_of_pitch {f : SoundFrame} {d : PitchDelta} (h : f.pi = .pitch d) :
    frameBundle f = 0#1 ++ encodeFrame f := by
  rw [frameBundle_eq, encodeFrame_eq, h]
  rfl

/-- The bundle of a noise frame is 1, the body and a zero pitch code. -/
theorem frameBundle_of_noise {f : SoundFrame} (h : f.pi = .noise) : frameBundle f = 1#1 ++ frameBody f ++ 0#5 := by
  rw [frameBundle_eq, h, BitVec.append_assoc]
  rfl

/-- Frames with the same bundle are the same. -/
theorem frameBundle_injective {f g : SoundFrame} (h : frameBundle f = frameBundle g) : f = g := by
  rw [frameBundle_eq, frameBundle_eq, append_inj_iff, append_inj_iff] at h
  obtain ⟨hnoise, hbody, hpitch⟩ := h
  obtain ⟨h1, h2, h3, h4, h5, h6, h7, h8, h9⟩ := (frameBody_inj f g).1 hbody
  have hpi : f.pi = g.pi := pi_eq_of_signals hnoise hpitch
  cases f
  cases g
  exact (SoundFrame.mk.injEq ..).mpr ⟨h1, h2, h3, h4, h5, h6, h7, h8, h9, hpi⟩

/-- Settles O10: the bundle by the kind of PI, and its injectivity. -/
theorem dispatchBundleLayout : Obligations.DispatchBundleLayout := by
  unfold Obligations.DispatchBundleLayout
  refine ⟨fun w => ⟨fun hpi => ?_, fun hpi => ?_⟩, fun f g => frameBundle_injective⟩
  · obtain ⟨d, hd, -⟩ := decodePI_of_ne hpi
    rw [frameBundle_of_pitch (f := decodeWord w) hd, encodeFrame_decodeWord]
  · rw [frameBundle_of_noise (f := decodeWord w) ((decodePI_eq_noise_iff _).2 hpi), frameBody_decodeWord]

/-! ### The `HIN` slots, and durations -/

/-- Settles O6: the slots are neighbouring slices of `HIN`, and each code has its row. -/
theorem hinSlotsAndCommandCodes : Obligations.HinSlotsAndCommandCodes := by
  unfold Obligations.HinSlotsAndCommandCodes
  refine ⟨fun h => ?_, fun c t => ⟨?_, ?_⟩, fun r => ⟨rfl, rfl, rfl, rfl⟩⟩
  · exact BitVec.extractLsb'_append_extractLsb' (w := 2)
  · exact BitVec.extractLsb'_append_eq_left
  · exact BitVec.extractLsb'_append_eq_right

/-- The tick count of a frame fits the four bits of `cnt`. -/
theorem toNat_ofNat_durTicks (f : SoundFrame) : (BitVec.ofNat 4 (durTicks f)).toNat = durTicks f := by
  have hfd : f.fd.toNat < 4 := f.fd.isLt
  exact Nat.mod_eq_of_lt (Nat.pow_lt_pow_right (by decide) hfd)

/-- The ticks and the ms of a frame by its FD code (30_encoding.md R52). -/
theorem durations_of_fd {f : SoundFrame} {c : BitVec 2} (h : f.fd = c) :
    durTicks f = 2 ^ c.toNat ∧ durMs f = 8 * 2 ^ c.toNat := by
  subst h
  exact ⟨rfl, rfl⟩

/-- Settles O9: the durations by FD code, at each of the four codes. -/
theorem frameDurations : Obligations.FrameDurations := by
  unfold Obligations.FrameDurations
  exact fun f => ⟨rfl, rfl, toNat_ofNat_durTicks f, durations_of_fd, durations_of_fd, durations_of_fd, durations_of_fd⟩

end Sys2Proof

/-! ## The Frame Decoder: DECODE against shift and mask, and against ENCODE (40_frame_decoder.md) -/

namespace Sys2Proof

/-! ### DECODE and ENCODE are inverse (40_frame_decoder.md R73) -/

/-- Frames with the same code are the same: the code determines what the dispatch bundle is made of. -/
theorem encodeFrame_injective : Function.Injective encodeFrame := by
  intro f g h
  rw [encodeFrame_eq, encodeFrame_eq, append_inj_iff] at h
  obtain ⟨hbody, hcode⟩ := h
  have hpi : f.pi = g.pi := Function.LeftInverse.injective decodePI_encodePI hcode
  exact frameBundle_injective (by rw [frameBundle_eq, frameBundle_eq, hbody, hpi])

/-- Decoding an encoded frame gives it back: both have the same code, by `encodeFrame_decodeWord`. -/
theorem decodeWord_encodeFrame (f : SoundFrame) : decodeWord (encodeFrame f) = f :=
  encodeFrame_injective (encodeFrame_decodeWord (encodeFrame f))

/-- Settles O4: ENCODE inverts DECODE on words and is injective, so DECODE inverts ENCODE on frames. -/
theorem frameDecodeEncodeInverse : Obligations.FrameDecodeEncodeInverse := by
  unfold Obligations.FrameDecodeEncodeInverse
  exact ⟨decodeWord_encodeFrame, encodeFrame_decodeWord⟩

/-! ### The field extractors as shift and mask (40_frame_decoder.md R67 to R70) -/

/-- The field of `n` bits from bit `lo` up, by a shift and a mask of `n` ones. -/
theorem toNat_extract_eq_shift_mask {v lo n : Nat} (x mask : BitVec v) (hmask : mask.toNat = 2 ^ n - 1) :
    (x.extractLsb' lo n).toNat = ((x >>> lo) &&& mask).toNat := by
  rw [BitVec.extractLsb'_toNat, BitVec.toNat_and, BitVec.toNat_ushiftRight, hmask, Nat.and_two_pow_sub_one_eq_mod]

/-- Settles O1: every extractor is a slice, and a slice is a shift and a mask. -/
theorem fieldExtractorsShiftAndMask : Obligations.FieldExtractorsShiftAndMask := by
  unfold Obligations.FieldExtractorsShiftAndMask
  intro w
  have bits2 : (3#32).toNat = 2 ^ 2 - 1 := by decide
  have bits3 : (7#32).toNat = 2 ^ 3 - 1 := by decide
  have bits4 : (15#32).toNat = 2 ^ 4 - 1 := by decide
  have bits5 : (31#32).toNat = 2 ^ 5 - 1 := by decide
  have field {lo n : Nat} {mask : Word32} := toNat_extract_eq_shift_mask (lo := lo) (n := n) w mask
  exact ⟨field bits2, field bits2, field bits2, field bits2, field bits3, field bits5, field bits5, field bits4,
    field bits2⟩

/-! ### Words written out (40_frame_decoder.md R77, R78) -/

/-- Settles O11: each word's class by the comparator and the sentinel, then its fields. -/
theorem writtenOutWordsDecode : Obligations.WrittenOutWordsDecode := by
  unfold Obligations.WrittenOutWordsDecode
  refine ⟨?voicedZeroPitch, ?noise, ?terminal, ?voicedNegativePitch, ?voicedAllOnes⟩
  case voicedZeroPitch | voicedNegativePitch | voicedAllOnes =>
    exact (decodeFrame_voiced (by decide) (by decide)).trans (congrArg Instr.frameVoiced (by decide))
  case noise => exact (decodeFrame_noise (by decide) (by decide)).trans (congrArg Instr.frameNoise (by decide))
  case terminal => exact (decodeFrame_terminal (by decide)).trans (congrArg Instr.frameTerminal (by decide))

end Sys2Proof

/-! ## The frame sequencer: its commands, its ticks and LOAD step, and one cycle
(41_frame_sequencer.md sections 1 to 5) -/

namespace Sys2Proof.Machine

/-! ### The commands (R91 to R96) -/

/-- Settles O23: both are the identity. -/
theorem nopAndRsvdWriteNothing : Obligations.NopAndRsvdWriteNothing := fun _ => ⟨rfl, rfl⟩

/-- START in a state that accepts it (R93). -/
theorem exec_start_accepted {s : State} (h : s.regs.st.acceptsStart = true) (r : Ref) :
    exec (.start r) s = .next (s.doStart r) := by
  simp [exec, execStart, h]

/-- START in a state that ignores it (R94). -/
theorem exec_start_ignored {s : State} (h : s.regs.st.acceptsStart = false) (r : Ref) :
    exec (.start r) s = .next s := by
  simp [exec, execStart, h]

/-- Idle, Stopped and Cancelled accept START. -/
theorem acceptsStart_of_quiescent {st : SeqState} (h : st = .idle ∨ st = .stopped ∨ st = .cancelled) :
    st.acceptsStart = true := by
  rcases h with rfl | rfl | rfl <;> rfl

/-- Loading and Playing ignore START. -/
theorem acceptsStart_of_busy {st : SeqState} (h : st = .loading ∨ st = .playing) : st.acceptsStart = false := by
  rcases h with rfl | rfl <;> rfl

/-- Settles O25: START writes what `startResult` gives, which is the outcome by R93's cases. -/
theorem startByCase : Obligations.StartByCase := by
  unfold Obligations.StartByCase
  intro r s hst
  exact ⟨_, _, startOutcome_startResult s.params (s.mem.sound r), exec_start_accepted (acceptsStart_of_quiescent hst) r⟩

/-- Settles O28: the effect of CANCEL, state by state. -/
theorem cancelByState : Obligations.CancelByState := by
  unfold Obligations.CancelByState
  intro s
  have hexec : exec .cancel s = .next s.afterCancel := rfl
  refine ⟨?_, ?_, ?_⟩
  · rintro (hst | hst) <;> rw [hexec, State.afterCancel, hst] <;> rfl
  · intro hst
    rw [hexec, State.afterCancel, hst]
    rfl
  · rintro (hst | hst) <;> rw [hexec, State.afterCancel, hst]

/-! ### TICK and WAIT (R103 to R105) -/

/-- TICK outside Playing has no effect (R103). -/
theorem exec_tick_not_playing {s : State} (h : s.regs.st ≠ .playing) : exec .tick s = .next s := by
  simp [exec, execTick, h]

/-- WAIT outside Playing, which no cycle selects (log entry 9). -/
theorem exec_wait_not_playing {s : State} (h : s.regs.st ≠ .playing) : exec .wait s = .next s := by
  simp [exec, execWait, h]

/-- Settles O32: a tick of the wait, by whether it is the last one and a cancellation is pending. -/
theorem waitCountsDown : Obligations.WaitCountsDown := by
  unfold Obligations.WaitCountsDown
  intro i s hi hst _
  rw [exec_tick_wait_playing hi hst]
  refine ⟨fun hmore => ?_, fun hlast hcp => ?_, fun hlast hcp => ?_⟩
  · simp [State.waitTick, State.withRegs, hmore]
  · simp [State.waitTick, State.withRegs, hlast, hcp, waitEndState]
  · simp [State.waitTick, State.withRegs, hlast, hcp, waitEndState]

/-! ### The LOAD step (R98 to R102) -/

section
variable {p : Params} {n bi off : Nat} {buf : SoundBuffer}

/-- LOAD_FETCH is selected exactly by a whole frame that is not terminal (R99). -/
theorem loadCaseIn_eq_fetch_iff {w : Word32} :
    loadCaseIn p n bi off buf = .fetch w ↔ readWord buf off = some w ∧ isTerminal p w = false := by
  constructor
  · intro h
    have hw := readWord_of_loadCaseIn (.inl h)
    refine ⟨hw, ?_⟩
    rw [loadCaseIn_read hw] at h
    simpa using h
  · rintro ⟨hw, hn⟩
    simp [loadCaseIn_read hw, hn]

/-- LOAD_TERMINAL is selected exactly by a whole frame that is terminal (R100). -/
theorem loadCaseIn_eq_terminal_iff {w : Word32} :
    loadCaseIn p n bi off buf = .terminal w ↔ readWord buf off = some w ∧ isTerminal p w = true := by
  constructor
  · intro h
    have hw := readWord_of_loadCaseIn (.inr h)
    refine ⟨hw, ?_⟩
    rw [loadCaseIn_read hw] at h
    simpa using h
  · rintro ⟨hw, hn⟩
    simp [loadCaseIn_read hw, hn]

/-- Where a whole frame is left, the buffer is not exhausted. -/
theorem loadCaseIn_of_whole (h : off + 4 ≤ buf.length) :
    loadCaseIn p n bi off buf ≠ .cross ∧ loadCaseIn p n bi off buf ≠ .exhaust := by
  obtain ⟨_, _, _, _, _, -, hw⟩ := readWord_of_le buf off h
  rw [loadCaseIn_read hw]
  split <;> simp

/-- LOAD_CROSS is selected exactly where the buffer is exhausted and another follows (R101). -/
theorem loadCaseIn_eq_cross_iff : loadCaseIn p n bi off buf = .cross ↔ buf.length < off + 4 ∧ bi + 1 < n := by
  by_cases hlen : buf.length < off + 4
  · simp [loadCaseIn_exhausted hlen, hlen]
  · simp [loadCaseIn_of_whole (Nat.le_of_not_lt hlen), hlen]

/-- LOAD_EXHAUST is selected exactly where the last buffer is exhausted (R102). -/
theorem loadCaseIn_eq_exhaust_iff : loadCaseIn p n bi off buf = .exhaust ↔ buf.length < off + 4 ∧ n ≤ bi + 1 := by
  by_cases hlen : buf.length < off + 4
  · simp [loadCaseIn_exhausted hlen, hlen]
  · simp [loadCaseIn_of_whole (Nat.le_of_not_lt hlen), hlen]

end

section
variable {s : State} {c : LoadCase} (hc : s.loadCase = .ok c)
include hc

/-- LOAD_FETCH where another case, or none, is selected (log entry 9). -/
theorem exec_loadFetch_unselected (hne : ∀ w, c ≠ .fetch w) : exec .loadFetch s = .next s := by
  cases c with
  | fetch w => exact absurd rfl (hne w)
  | _ => simp [exec, execLoadFetch, hc]

/-- LOAD_TERMINAL where another case, or none, is selected (log entry 9). -/
theorem exec_loadTerminal_unselected (hne : ∀ w, c ≠ .terminal w) : exec .loadTerminal s = .next s := by
  cases c with
  | terminal w => exact absurd rfl (hne w)
  | _ => simp [exec, execLoadTerminal, hc]

/-- LOAD_CROSS where another case, or none, is selected (log entry 9). -/
theorem exec_loadCross_unselected (hne : c ≠ .cross) : exec .loadCross s = .next s := by
  cases c with
  | cross => exact absurd rfl hne
  | _ => simp [exec, execLoadCross, hc]

/-- LOAD_EXHAUST where another case, or none, is selected (log entry 9). -/
theorem exec_loadExhaust_unselected (hne : c ≠ .exhaust) : exec .loadExhaust s = .next s := by
  cases c with
  | exhaust => exact absurd rfl hne
  | _ => simp [exec, execLoadExhaust, hc]

end

section
variable {s : State} {S : NamedSound} {buf : SoundBuffer} (hst : s.regs.st = .loading) (hS : s.sound? = some S)
  (hb : S[s.regs.bi]? = some buf)
include hst hS hb

/-- The LOAD case at a whole frame that is not terminal. -/
theorem loadCase_eq_fetch {w : Word32} (hw : readWord buf s.regs.off = some w) (hn : isTerminal s.params w = false) :
    s.loadCase = .ok (.fetch w) := by
  rw [loadCase_inBuffer hst hS hb, loadCaseIn_eq_fetch_iff.2 ⟨hw, hn⟩]

/-- The LOAD case at a terminal frame. -/
theorem loadCase_eq_terminal {w : Word32} (hw : readWord buf s.regs.off = some w)
    (hn : isTerminal s.params w = true) : s.loadCase = .ok (.terminal w) := by
  rw [loadCase_inBuffer hst hS hb, loadCaseIn_eq_terminal_iff.2 ⟨hw, hn⟩]

/-- The LOAD case at the end of a buffer that another follows. -/
theorem loadCase_eq_cross (hlen : buf.length < s.regs.off + 4) (hn : s.regs.bi + 1 < S.length) :
    s.loadCase = .ok .cross := by
  rw [loadCase_inBuffer hst hS hb, loadCaseIn_eq_cross_iff.2 ⟨hlen, hn⟩]

/-- The LOAD case at the end of the last buffer. -/
theorem loadCase_eq_exhaust (hlen : buf.length < s.regs.off + 4) (hn : S.length ≤ s.regs.bi + 1) :
    s.loadCase = .ok .exhaust := by
  rw [loadCase_inBuffer hst hS hb, loadCaseIn_eq_exhaust_iff.2 ⟨hlen, hn⟩]

end

/-- Settles O33: LOAD_FETCH on the case that selects it. -/
theorem loadFetchDispatches : Obligations.LoadFetchDispatches := by
  unfold Obligations.LoadFetchDispatches
  intro s S buf w hst hS hb hw hn
  exact ⟨_, execLoadFetch_fetch (loadCase_eq_fetch hst hS hb hw hn), rfl, rfl, rfl, rfl, rfl, rfl, rfl⟩

/-- Settles O34: LOAD_TERMINAL on the case that selects it. -/
theorem loadTerminalStops : Obligations.LoadTerminalStops := by
  unfold Obligations.LoadTerminalStops
  exact fun s S buf w hst hS hb hw hn => execLoadTerminal_terminal (loadCase_eq_terminal hst hS hb hw hn)

/-- Settles O35: LOAD_CROSS on the case that selects it. -/
theorem loadCrossMovesToNextBuffer : Obligations.LoadCrossMovesToNextBuffer := by
  unfold Obligations.LoadCrossMovesToNextBuffer
  intro s S buf hst hS hb hlen hn
  simp only [exec, execLoadCross, loadCase_eq_cross hst hS hb hlen hn]
  rfl

/-- Where no whole frame is left in a buffer of an accepted sound, the cursor is at its end: offset and length are
multiples of 4. -/
theorem off_eq_length_of_exhausted {s : State} {S : NamedSound} {buf : SoundBuffer} (hinv : Inv s)
    (hacc : LatchedSoundAccepted s) (hst : s.regs.st = .loading) (hS : s.sound? = some S)
    (hb : S[s.regs.bi]? = some buf) (hlen : buf.length < s.regs.off + 4) : s.regs.off = buf.length := by
  obtain ⟨S', hS', hres⟩ := hacc (.inl hst)
  obtain rfl : S = S' := Option.some.inj (hS.symm.trans hS')
  obtain ⟨S', buf', hS', hb', hoff⟩ := hinv.cursorInSound (.inl hst)
  obtain rfl : S = S' := Option.some.inj (hS.symm.trans hS')
  obtain rfl : buf = buf' := Option.some.inj (hb.symm.trans hb')
  have hwhole : buf.length % 4 = 0 := length_mod_four_of_accepted hres (List.mem_of_getElem? hb)
  have haligned := hinv.aligned
  omega

/-- Settles O36: LOAD_EXHAUST on the case that selects it, in the last buffer and at its end. -/
theorem loadExhaustStops : Obligations.LoadExhaustStops := by
  unfold Obligations.LoadExhaustStops
  intro s S buf hst hS hb hlen hn
  refine ⟨?_, fun hinv hacc => ⟨?_, off_eq_length_of_exhausted hinv hacc hst hS hb hlen⟩⟩
  · simp only [exec, execLoadExhaust, loadCase_eq_exhaust hst hS hb hlen hn]
    rfl
  · have hbi := (List.getElem?_eq_some_iff.1 hb).1
    omega

/-- Settles O37: the frame rows where they are selected, and DECODE. -/
theorem frameRowsAndDecode : Obligations.FrameRowsAndDecode := by
  unfold Obligations.FrameRowsAndDecode
  refine ⟨fun f s hst => ⟨?_, ?_⟩, fun w s => rfl⟩
  · simp only [exec, execFrameTerminal, hst, if_true]
    rfl
  · rintro i (rfl | rfl)
    · simp only [exec, execFrameNoise, hst, if_true]
      rfl
    · simp only [exec, execFrameVoiced, hst, if_true]
      rfl

/-- Settles O38: outside Loading no LOAD case is selected, and in Loading the one whose condition holds. -/
theorem unselectedRowsAreInert : Obligations.UnselectedRowsAreInert := by
  unfold Obligations.UnselectedRowsAreInert
  refine ⟨fun f s hst => ?_, fun s => exec_wait_not_playing, fun s S buf hst hS hb => ?_⟩
  · have hc := loadCase_notLoading hst
    refine ⟨?_, ?_, ?_, exec_loadFetch_unselected hc nofun, exec_loadTerminal_unselected hc nofun,
      exec_loadCross_unselected hc nofun, exec_loadExhaust_unselected hc nofun⟩
    · simp [exec, execFrameTerminal, hst]
    · simp [exec, execFrameNoise, hst]
    · simp [exec, execFrameVoiced, hst]
  · have hc := loadCase_inBuffer hst hS hb
    exact ⟨fun hno => exec_loadFetch_unselected hc fun w hw => hno ⟨w, loadCaseIn_eq_fetch_iff.1 hw⟩,
      fun hno => exec_loadTerminal_unselected hc fun w hw => hno ⟨w, loadCaseIn_eq_terminal_iff.1 hw⟩,
      fun hno => exec_loadCross_unselected hc fun h => hno (loadCaseIn_eq_cross_iff.1 h),
      fun hno => exec_loadExhaust_unselected hc fun h => hno (loadCaseIn_eq_exhaust_iff.1 h)⟩

/-- Settles O43: of all an instruction can do, only reset and a dispatch touch the port. -/
theorem dispatchOnlyFromLoading : Obligations.DispatchOnlyFromLoading := by
  unfold Obligations.DispatchOnlyFromLoading
  intro i s t h
  cases exec_outcome h with
  | reset hi => exact .inr (.inl ⟨hi, rfl⟩)
  | dispatch _ _ hst | fetch _ _ hst => exact .inr (.inr ⟨hst, rfl, rfl⟩)
  | _ => exact .inl rfl

/-! ### One cycle: what it reads of its inputs (R87 to R94, R103) -/

/-- A line with CANCEL has no START (30_encoding.md R62). -/
theorem isStart_of_isCancel {l : InputLine} (hc : l.isCancel = true) : l.isStart = false :=
  Bool.eq_false_iff.2 fun hs => not_start_and_cancel l ⟨hs, hc⟩

/-- Two lines with the same reset, tick and CANCEL whose commands do the same make the same cycle. -/
theorem runCycle_congr {l l' : InputLine} {s : State} (hrst : l.rst = l'.rst) (htick : hinTick l.hin = hinTick l'.hin)
    (hcan : l.isCancel = l'.isCancel) (hcmd : s.afterCommand l = s.afterCommand l') : runCycle l s = runCycle l' s := by
  have hcan' : (hinCmd l.hin == cmdCancel) = (hinCmd l'.hin == cmdCancel) := hcan
  simp only [runCycle, runInputs, exec_command, hrst, htick, hcan', hcmd]

/-- A line with neither START nor CANCEL has a command that does nothing. -/
theorem afterCommand_none {l : InputLine} (hs : l.isStart = false) (hc : l.isCancel = false) (s : State) :
    s.afterCommand l = s := by
  simp [State.afterCommand, hs, hc]

/-- A line with START in a state that ignores it has a command that does nothing. -/
theorem afterCommand_ignored {l : InputLine} {s : State} (hs : l.isStart = true)
    (h : s.regs.st.acceptsStart = false) : s.afterCommand l = s := by
  simp [State.afterCommand, hs, h]

/-- Settles O24: neither command does anything. -/
theorem reservedCommandActsAsNop : Obligations.ReservedCommandActsAsNop := by
  unfold Obligations.ReservedCommandActsAsNop
  intro s l l' hrst htick hrsvd hnop
  have hs : l.isStart = false ∧ l'.isStart = false := by simp [InputLine.isStart, hrsvd, hnop]
  have hc : l.isCancel = false ∧ l'.isCancel = false := by simp [InputLine.isCancel, hrsvd, hnop]
  have hcmd : (s.driven l).beginCycle.afterCommand l = (s.driven l).beginCycle.afterCommand l' := by
    rw [afterCommand_none hs.1 hc.1, afterCommand_none hs.2 hc.2]
  exact runCycle_congr hrst htick (hc.1.trans hc.2.symm) hcmd

/-- Settles O26: a START that is ignored does what NOP does. -/
theorem startIgnoredWhileBusy : Obligations.StartIgnoredWhileBusy := by
  unfold Obligations.StartIgnoredWhileBusy
  intro s hst
  have hbusy := acceptsStart_of_busy hst
  refine ⟨exec_start_ignored hbusy, fun l l' hrst htick hstart hnop => ?_⟩
  have hs : l.isStart = true ∧ l'.isStart = false := by simp [InputLine.isStart, hstart, hnop]
  have hc : l.isCancel = false ∧ l'.isCancel = false := by simp [InputLine.isCancel, hstart, hnop]
  have hcmd : (s.driven l).beginCycle.afterCommand l = (s.driven l).beginCycle.afterCommand l' :=
    (afterCommand_ignored (s := (s.driven l).beginCycle) hs.1 hbusy).trans (afterCommand_none hs.2 hc.2 _).symm
  exact runCycle_congr hrst htick (hc.1.trans hc.2.symm) hcmd

/-- The command slot of a line that is no accepted START does not read `sndIn` (R89). -/
theorem afterCommand_sndIn {rst : BitVec 1} {hin : BitVec 3} {s : State} (a b : Ref)
    (hno : InputLine.isStart ⟨rst, hin, a⟩ = true → s.regs.st.acceptsStart = false) :
    s.afterCommand ⟨rst, hin, a⟩ = s.afterCommand ⟨rst, hin, b⟩ := by
  cases hs : InputLine.isStart ⟨rst, hin, a⟩ with
  | true =>
    have hs' : InputLine.isStart ⟨rst, hin, b⟩ = true := hs
    rw [afterCommand_ignored hs (hno hs), afterCommand_ignored hs' (hno hs)]
  | false =>
    have hs' : InputLine.isStart ⟨rst, hin, b⟩ = false := hs
    simp [State.afterCommand, hs, hs', InputLine.isCancel]

/-- Settles O27: the command slot reads `sndIn` where START is accepted, and a cycle with reset reads no command. -/
theorem sndInReadOnlyByAcceptedStart : Obligations.SndInReadOnlyByAcceptedStart := by
  unfold Obligations.SndInReadOnlyByAcceptedStart
  intro s rst hin a b hno
  cases hr : InputLine.isReset ⟨rst, hin, a⟩ with
  | true => exact (runCycle_reset hr _).trans (runCycle_reset (l := ⟨rst, hin, b⟩) hr _).symm
  | false =>
    have hbusy : InputLine.isStart ⟨rst, hin, a⟩ = true → s.regs.st.acceptsStart = false := by
      intro hs
      simpa [startsRun, hr, hs] using hno
    exact runCycle_congr rfl rfl rfl (afterCommand_sndIn (s := (s.driven ⟨rst, hin, a⟩).beginCycle) a b hbusy)

/-- A command leaves no state but Playing in Playing. -/
theorem afterCommand_ne_playing {s : State} (h : s.regs.st ≠ .playing) (l : InputLine) :
    (s.afterCommand l).regs.st ≠ .playing := by
  have hstart : (startResult s.params (s.mem.sound l.sndIn)).1 ≠ .playing := by
    rcases startResult_cases s.params (s.mem.sound l.sndIn) with hres | hres | ⟨hres, -⟩ <;> simp [hres]
  unfold State.afterCommand State.afterCancel
  split
  · split
    · exact hstart
    · exact h
  · split
    · split <;> simp_all
    · exact h

/-- Outside Playing a cycle without reset is its command and its LOAD step: no tick is counted (R103). -/
theorem runInputs_not_playing {s : State} (h : s.regs.st ≠ .playing) (l : InputLine) :
    runInputs l s = runLoad l.isCancel s (s.afterCommand l) := by
  simp only [runInputs, exec_command, andThen_next, runTick_line, afterCommand_ne_playing h, and_false, if_false]
  rfl

/-- Outside Playing two lines that differ in the tick alone make the same cycle. -/
theorem runCycle_tick_ignored {s : State} (h : s.regs.st ≠ .playing) {l l' : InputLine} (hrst : l.rst = l'.rst)
    (hcmd : hinCmd l.hin = hinCmd l'.hin) (hsnd : l.sndIn = l'.sndIn) : runCycle l s = runCycle l' s := by
  have hs : l.isStart = l'.isStart := by rw [InputLine.isStart, hcmd, InputLine.isStart]
  have hc : l.isCancel = l'.isCancel := by rw [InputLine.isCancel, hcmd, InputLine.isCancel]
  have hinputs : runInputs l s = runInputs l' s := by
    rw [runInputs_not_playing h, runInputs_not_playing h, State.afterCommand, State.afterCommand, hs, hc, hsnd]
  rw [runCycle, hrst, hinputs, runCycle]

/-- Settles O31: outside Playing the cycle is the command and the LOAD step, in which the tick does not occur. -/
theorem tickIgnoredOutsidePlaying : Obligations.TickIgnoredOutsidePlaying := by
  unfold Obligations.TickIgnoredOutsidePlaying
  exact fun s hst => ⟨exec_tick_not_playing hst,
    fun l _ hrst hcmd hsnd => runCycle_tick_ignored (s := (s.driven l).beginCycle) hst hrst hcmd hsnd⟩

/-! ### One cycle: the instruction it runs (R87, R88, R97, R98) -/

/-- The tick slot as an instruction. -/
theorem runSlot_decodeTick (t : BitVec 1) (s : State) :
    runSlot (decodeTick t) s = if t = 1#1 then exec .tick s else .next s := by
  unfold decodeTick
  split <;> rfl

/-- Settles O44: the slots of a cycle, in order. -/
theorem stepRunsDecodedInstructions : Obligations.StepRunsDecodedInstructions := by
  unfold Obligations.StepRunsDecodedInstructions
  intro s
  refine ⟨fun hr => ?_, fun hr => ?_, rfl, rfl, rfl, rfl, rfl⟩
  · simp [step, runCycle, decodeRst, hr]
  · simp only [step, runCycle, decodeRst, hr, if_false, runInputs, runSlot_decodeTick]
    rfl

/-- In Loading a cycle without reset and CANCEL is its LOAD step. -/
theorem runCycle_loading {l : InputLine} {s : State} (hr : l.isReset = false) (hc : l.isCancel = false)
    (hst : s.regs.st = .loading) : runCycle l s = loadAnswer s := by
  rw [runCycle_inputs hr, runInputs_loading hst hc]

/-- In Loading a cycle without reset and CANCEL is the row that the internal decoder selects. -/
theorem runCycle_selected {l : InputLine} {s : State} {c : LoadCase} {i : Instr} (hr : l.isReset = false)
    (hc : l.isCancel = false) (hst : s.regs.st = .loading) (hcase : s.loadCase = .ok c)
    (hi : decodeInternal s.regs.st.code c.cond = .ok i) : runCycle l s = exec i s := by
  rw [runCycle_loading hr hc hst, ← runLoad_self]
  simp [runLoad, hcase, hi, runSlot]

/-- In Idle, Stopped and Cancelled a cycle without reset is its command. -/
theorem runCycle_command {l : InputLine} {s : State} (hr : l.isReset = false) (hl : s.regs.st ≠ .loading)
    (hp : s.regs.st ≠ .playing) : runCycle l s = exec (decodeCmd (hinCmd l.hin) l.sndIn) s := by
  rw [runCycle_inputs hr, runInputs_not_playing hp, runLoad_notLoading hl, exec_command]

/-- Settles O45: the LOAD slot, and where there is none, the command slot. -/
theorem stepRunsSelectedRow : Obligations.StepRunsSelectedRow := by
  unfold Obligations.StepRunsSelectedRow
  intro s l hr
  exact ⟨fun hst hc c i hcase hi => runCycle_selected (s := (s.driven l).beginCycle) hr hc hst hcase hi,
    fun hl hp => runCycle_command (s := (s.driven l).beginCycle) hr hl hp⟩

/-- The frame instruction that a word stands for is what the sequencer does with the word (30_encoding.md R56). -/
theorem exec_decodeFrame (w : Word32) (s : State) : exec (decodeFrame s.params w) s = runFrame w s := by
  unfold decodeFrame runFrame
  cases classOf s.params w <;> rfl

/-- A byte of storage by its location is a byte of the buffer there (20_memory.md R32). -/
theorem byteAt_eq_some {m : Memory} {r : Ref} {b o : Nat} {x : Byte} :
    m.byteAt r b o = some x ↔ ∃ buf, (m.sound r)[b]? = some buf ∧ buf[o]? = some x := by
  rw [Memory.byteAt, Option.bind_eq_some_iff]

/-- Four bytes of storage that stand one after the other in a buffer are the word read there (20_memory.md R34). -/
theorem readWord_of_byteAt {m : Memory} {r : Ref} {b o : Nat} {b0 b1 b2 b3 : Byte} (h0 : m.byteAt r b o = some b0)
    (h1 : m.byteAt r b (o + 1) = some b1) (h2 : m.byteAt r b (o + 2) = some b2)
    (h3 : m.byteAt r b (o + 3) = some b3) :
    ∃ buf, (m.sound r)[b]? = some buf ∧ readWord buf o = some (wordOfBytes b0 b1 b2 b3) := by
  obtain ⟨buf, hb, h0⟩ := byteAt_eq_some.1 h0
  simp only [byteAt_eq_some, hb, Option.some.injEq, exists_eq_left'] at h1 h2 h3
  exact ⟨buf, hb, readWord_of_bytes h0 h1 h2 h3⟩

section
variable {l : InputLine} {s : State} {S : NamedSound} {buf : SoundBuffer} {w : Word32} (hr : l.isReset = false)
  (hc : l.isCancel = false) (hst : s.regs.st = .loading) (hS : s.sound? = some S) (hb : S[s.regs.bi]? = some buf)
  (hw : readWord buf s.regs.off = some w)
include hr hc hst hS hb hw

/-- A cycle at a terminal word is the frame instruction that the word stands for. -/
theorem runCycle_terminal_frame (hn : isTerminal s.params w = true) :
    runCycle l s = exec (decodeFrame s.params w) s := by
  rw [runCycle_loading hr hc hst, loadAnswer, loadCase_eq_terminal hst hS hb hw hn, exec_decodeFrame,
    runFrame_stop hst hn]

/-- A cycle at any other word is DECODE of it and then the frame instruction that it stands for. -/
theorem runCycle_dispatched_frame (hn : isTerminal s.params w = false) :
    runCycle l s = andThen (exec (.decode w) s) (exec (decodeFrame s.params w)) := by
  rw [runCycle_fetched hr hc hst hS hb hw hn]
  show _ = exec (decodeFrame (s.withDecoded (decodeWord w)).params w) (s.withDecoded (decodeWord w))
  rw [exec_decodeFrame]
  exact (runFrame_dispatch (s := s.withDecoded (decodeWord w)) hst hn).symm

end

/-- Settles O46: the four bytes are the word the LOAD step reads, and it runs that word as the frame it is. -/
theorem stepRunsFetchedFrame : Obligations.StepRunsFetchedFrame := by
  unfold Obligations.StepRunsFetchedFrame
  intro s l r b0 b1 b2 b3 i rest hr hc hst hsnd h0 h1 h2 h3 hi
  obtain ⟨buf, hb, hw⟩ := readWord_of_byteAt h0 h1 h2 h3
  have hS : (s.driven l).beginCycle.sound? = some (s.mem.sound r) := by simp [State.sound?, hsnd]
  obtain rfl : decodeFrame s.params (wordOfBytes b0 b1 b2 b3) = i := (Prod.mk.inj (Except.ok.inj hi)).1
  exact ⟨runCycle_terminal_frame (s := (s.driven l).beginCycle) hr hc hst hS hb hw,
    runCycle_dispatched_frame (s := (s.driven l).beginCycle) hr hc hst hS hb hw⟩

/-! ### One cycle: what becomes of the registers and the port (R106, R107, R116) -/

/-- Stopped and Cancelled hold without START and reset, and so does Idle without CANCEL (R106, R107). -/
theorem runCycle_held {l : InputLine} (s : State) (hr : l.isReset = false) (hs : l.isStart = false)
    (hst : s.regs.st = .stopped ∨ s.regs.st = .cancelled ∨ (s.regs.st = .idle ∧ l.isCancel = false)) :
    runCycle l s = .next s := by
  rw [runCycle_inputs hr]
  rcases hst with hst | hst | ⟨hst, hc⟩
  · simp [runInputs_ended (.inl hst), hs]
  · simp [runInputs_ended (.inr hst), hs]
  · simp [runInputs_idle hst, hs, hc]

/-- A START that is acted on (R93). -/
theorem runCycle_started {l : InputLine} {s : State} (h : startsRun l s = true) :
    runCycle l s = .next (s.doStart l.sndIn) := by
  simp only [startsRun, Bool.and_eq_true, Bool.not_eq_true'] at h
  obtain ⟨⟨hr, hs⟩, hacc⟩ := h
  rw [runCycle_inputs hr]
  cases hst : s.regs.st with
  | idle => simp [runInputs_idle hst, hs]
  | stopped => simp [runInputs_ended (.inl hst), hs]
  | cancelled => simp [runInputs_ended (.inr hst), hs]
  | loading | playing => simp [hst, SeqState.acceptsStart] at hacc

/-- Settles O49: the cycle holds the state it begins with, whatever storage is. -/
theorem quiescentStatesHold : Obligations.QuiescentStatesHold := by
  unfold Obligations.QuiescentStatesHold
  intro s l m hr hs hst
  exact ⟨_, (step_driven _ l).trans (runCycle_held _ hr hs hst), rfl, rfl⟩

/-- A CANCEL in Loading: no LOAD step, so no read (R95). -/
theorem runCycle_loading_cancel {l : InputLine} (s : State) (hr : l.isReset = false) (hc : l.isCancel = true)
    (hst : s.regs.st = .loading) : runCycle l s = .next s.enterCancelled := by
  rw [runCycle_inputs hr, runInputs_loading_cancel hst hc]

/-- Settles O29: the CANCEL's cycle, whatever storage is. -/
theorem cancelPreemptsLoad : Obligations.CancelPreemptsLoad := by
  unfold Obligations.CancelPreemptsLoad
  intro s l m hst hr hc
  exact ⟨_, (step_driven _ l).trans (runCycle_loading_cancel _ hr hc hst), rfl, rfl⟩

/-- Settles O30: the CANCEL is latched before the last tick ends the wait. -/
theorem cancelWithFinalTick : Obligations.CancelWithFinalTick := by
  unfold Obligations.CancelWithFinalTick
  intro s l hst hcnt hr hc ht
  refine ⟨_, step_playing hst hr, ?_, ?_⟩
  · simp [ht, hc, hcnt, waitEndState]
  · simp [ht]

section
variable {l : InputLine} (s : State) {t : State} (h : runCycle l s = .next t) (hport : s.port = none)
  (hr : l.isReset = false)
include h hport hr

/-- The rows of Idle. -/
theorem row_idle (hst : s.regs.st = .idle) :
    t.port = none
      ∧ (l.isStart = true → StartOutcome s.params (s.mem.sound l.sndIn) t.regs.st t.regs.reason)
      ∧ (l.isCancel = true → t.regs.st = .cancelled)
      ∧ (l.isStart = false → l.isCancel = false → t.regs = s.regs) := by
  rw [runCycle_inputs hr, runInputs_idle hst] at h
  cases h
  cases hs : l.isStart with
  | true =>
    have hc : l.isCancel = false := by
      rw [← Bool.not_eq_true]
      exact fun hc => not_start_and_cancel l ⟨hs, hc⟩
    exact ⟨hport, fun _ => startOutcome_startResult s.params (s.mem.sound l.sndIn), by simp [hc], nofun⟩
  | false => cases hc : l.isCancel <;> simp [hport]

/-- The rows of Stopped and Cancelled. -/
theorem row_ended (hst : s.regs.st = .stopped ∨ s.regs.st = .cancelled) :
    t.port = none
      ∧ (l.isStart = true → StartOutcome s.params (s.mem.sound l.sndIn) t.regs.st t.regs.reason)
      ∧ (l.isStart = false → t.regs = s.regs) := by
  rw [runCycle_inputs hr, runInputs_ended hst] at h
  cases h
  cases hs : l.isStart with
  | true => exact ⟨hport, fun _ => startOutcome_startResult s.params (s.mem.sound l.sndIn), nofun⟩
  | false => exact ⟨hport, nofun, fun _ => rfl⟩

/-- The rows of Playing. -/
theorem row_playing (hst : s.regs.st = .playing) :
    t.port = none
      ∧ (l.isTick = true → s.regs.cnt = 1#4 →
          t.regs.st = if s.regs.cp || l.isCancel then .cancelled else .loading)
      ∧ (l.isTick = true → s.regs.cnt ≠ 1#4 → t.regs.st = .playing ∧ t.regs.cnt = s.regs.cnt - 1#4)
      ∧ (l.isTick = false → t.regs.st = .playing ∧ t.regs.cnt = s.regs.cnt)
      ∧ t.regs.cp = (s.regs.cp || l.isCancel) := by
  rw [runCycle_inputs hr, runInputs_playing hst] at h
  cases h
  cases ht : l.isTick with
  | true => exact ⟨hport, fun _ hlast => by simp [hlast, waitEndState], fun _ hmore => by simp [hmore, hst], nofun, rfl⟩
  | false => exact ⟨hport, nofun, nofun, fun _ => ⟨hst, rfl⟩, rfl⟩

/-- The rows of Loading without CANCEL. -/
theorem row_loading {S : NamedSound} {buf : SoundBuffer} (hc : l.isCancel = false) (hst : s.regs.st = .loading)
    (hS : s.sound? = some S) (hb : S[s.regs.bi]? = some buf) :
    (∀ w, readWord buf s.regs.off = some w → isTerminal s.params w = true →
        t.regs.st = .stopped ∧ t.regs.reason = .terminal ∧ t.port = none)
      ∧ (∀ w, readWord buf s.regs.off = some w → isTerminal s.params w = false →
          t.regs.st = .playing ∧ t.port = some (decodeWord w))
      ∧ (readWord buf s.regs.off = none → s.regs.bi + 1 < S.length → t.regs.st = .loading ∧ t.port = none)
      ∧ (readWord buf s.regs.off = none → S.length ≤ s.regs.bi + 1 →
          t.regs.st = .stopped ∧ t.regs.reason = .exhausted ∧ t.port = none) := by
  rw [runCycle_loading hr hc hst, loadAnswer] at h
  have short (hnone : readWord buf s.regs.off = none) : buf.length < s.regs.off + 4 := by
    by_contra hlen
    have hsome := (readWord_isSome buf s.regs.off).2 (by omega)
    simp [hnone] at hsome
  refine ⟨fun w hw hn => ?_, fun w hw hn => ?_, fun hnone hn => ?_, fun hnone hn => ?_⟩
  · rw [loadCase_eq_terminal hst hS hb hw hn] at h
    cases h
    exact ⟨rfl, rfl, hport⟩
  · rw [loadCase_eq_fetch hst hS hb hw hn] at h
    cases h
    exact ⟨rfl, rfl⟩
  · rw [loadCase_eq_cross hst hS hb (short hnone) hn] at h
    cases h
    exact ⟨hst, hport⟩
  · rw [loadCase_eq_exhaust hst hS hb (short hnone) hn] at h
    cases h
    exact ⟨rfl, rfl, hport⟩

end

/-- Settles O47: the rows, state by state, of the step that the invariant grants. -/
theorem transitionTable : Obligations.TransitionTable := by
  unfold Obligations.TransitionTable
  intro s l hinv
  obtain ⟨t, ht⟩ := runCycle_isNext (s := (s.driven l).beginCycle) (hinv.congr rfl rfl) l
  refine ⟨t, ht, fun hr => ?_, row_idle (s.driven l).beginCycle ht rfl, fun hr hst hc => ?_, fun hr hst hc => ?_,
    row_playing (s.driven l).beginCycle ht rfl, row_ended (s.driven l).beginCycle ht rfl⟩
  · cases (runCycle_reset hr _).symm.trans ht
    exact ⟨rfl, rfl⟩
  · cases (runCycle_loading_cancel (s.driven l).beginCycle hr hc hst).symm.trans ht
    exact ⟨rfl, rfl⟩
  · obtain ⟨S, buf, hS, hb, -⟩ := hinv.cursorInSound (.inl hst)
    exact ⟨S, buf, hS, hb, row_loading (s.driven l).beginCycle ht rfl hr hc hst hS hb⟩

end Sys2Proof.Machine

/-! ## The frame sequencer: the laws of a run (41_frame_sequencer.md sections 4 and 6) -/

namespace Sys2Proof.Machine

/-! ### Runs, one cycle more -/

/-- The inversion of a run's last cycle: it begins in the state that the cycles before it leave. -/
theorem drive_succ_next {ins : Nat → InputLine} {n : Nat} {s u : State} (h : drive ins (n + 1) s = .next u) :
    ∃ t, drive ins n s = .next t ∧ CycleOutcome (ins n) (t.driven (ins n)).beginCycle u := by
  obtain ⟨t, hdrive, hstep⟩ := andThen_eq_next.1 h
  exact ⟨t, hdrive, step_outcome hstep⟩

/-- From a state with the invariant a run goes on for one cycle more, and keeps the invariant. -/
theorem drive_succ_of_inv {ins : Nat → InputLine} {n : Nat} {s t : State} (h : drive ins n s = .next t) (hinv : Inv t) :
    ∃ u, drive ins (n + 1) s = .next u ∧ CycleOutcome (ins n) (t.driven (ins n)).beginCycle u ∧ Inv u := by
  have hdriven : Inv (t.driven (ins n)) := hinv.congr rfl rfl
  obtain ⟨u, hu⟩ := step_isNext hdriven
  have ho := step_outcome hu
  exact ⟨u, (drive_succ_of h).trans hu, ho, ho.keeps_inv hdriven.beginCycle⟩

/-- The dispatches of a run one cycle longer, by what stands on the port after it. -/
theorem dispatched_succ_of {ins : Nat → InputLine} {n : Nat} {s u : State} (h : drive ins (n + 1) s = .next u) :
    dispatched ins s (n + 1) = dispatched ins s n ++ u.port.toList := by
  rw [dispatched_succ, dispatchAt_of h]

/-! ### No dispatch after CANCEL (R111) -/

/-- A state from which, until a START is acted on, no cycle dispatches: not Loading, and the wait of a frame already
dispatched ends in Cancelled. -/
def Muted (s : State) : Prop := s.regs.st ≠ .loading ∧ (s.regs.st = .playing → s.regs.cp = true)

/-- A cycle that has a CANCEL, or begins in a muted state, and acts on no START dispatches nothing and ends in a muted
state. -/
theorem CycleOutcome.muted {l : InputLine} {s t : State} (h : CycleOutcome l s t) (hport : s.port = none)
    (hstart : startsRun l s = false) (hmute : l.isCancel = true ∨ Muted s) : t.port = none ∧ Muted t := by
  have noLoad (hc : l.isCancel = false) (hst : s.regs.st = .loading) : False := by
    rcases hmute with hcan | ⟨hne, -⟩
    · simp [hc] at hcan
    · exact hne hst
  have latched (hst : s.regs.st = .playing) : (s.regs.cp || l.isCancel) = true := by
    rcases hmute with hcan | ⟨-, hcp⟩
    · simp [hcan]
    · simp [hcp hst]
  cases h with
  | reset => exact ⟨rfl, by simp [Muted, Regs.reset]⟩
  | held _ hst => exact ⟨hport, hst.1, fun hp => absurd hp hst.2⟩
  | started hr hs ha => simp [startsRun, hr, hs, ha] at hstart
  | cancelled => exact ⟨hport, by simp [Muted]⟩
  | waiting _ hst => exact ⟨hport, by simp [hst], fun _ => latched hst⟩
  | ticked _ hst =>
    refine ⟨hport, ?_, fun _ => latched hst⟩
    simp only [State.waitTick_regs, State.latchCancel_regs, latched hst, waitEndState, hst]
    split <;> simp
  | fetched _ hc hst | terminal _ hc hst | crossed _ hc hst | exhausted _ hc hst => exact (noLoad hc hst).elim

/-- A run with a CANCEL in cycle 0 and no later START that is acted on is muted after every cycle. -/
theorem drive_muted {ins : Nat → InputLine} {s : State} {n : Nat} (hcan : (ins 0).isCancel = true)
    (hstart : ∀ k t, 1 ≤ k → k < n → drive ins k s = .next t → startsRun (ins k) t = false) (k : Nat) (hk : k < n)
    (u : State) (hu : drive ins (k + 1) s = .next u) : u.port = none ∧ Muted u := by
  induction k generalizing u with
  | zero =>
    obtain ⟨t, -, ho⟩ := drive_succ_next hu
    exact ho.muted rfl (by simp [startsRun, isStart_of_isCancel hcan]) (.inl hcan)
  | succ k ih =>
    obtain ⟨t, ht, ho⟩ := drive_succ_next hu
    obtain ⟨-, hmute⟩ := ih (by omega) t ht
    exact ho.muted rfl (hstart (k + 1) t (by omega) hk ht) (.inr hmute)

/-- Settles O56: the CANCEL's cycle and every later one end in a muted state, and none dispatches. -/
theorem noDispatchAfterCancel : Obligations.NoDispatchAfterCancel := by
  unfold Obligations.NoDispatchAfterCancel
  intro ins s n _ _ hcan hstart
  refine List.filterMap_eq_nil_iff.2 fun k hk => ?_
  unfold dispatchAt
  split
  · rename_i u hu
    exact (drive_muted hcan hstart k (List.mem_range.1 hk) u hu).1
  · rfl

/-! ### The wait of a frame (R104, R105, R114) -/

/-- The ticks left of a wait that has not ended: `cnt` does not wrap. -/
theorem toNat_cnt_sub_ticks {cnt : BitVec 4} {ticks : Nat} (h : ticks < cnt.toNat) :
    (cnt - BitVec.ofNat 4 ticks).toNat = cnt.toNat - ticks := by
  have hlt : cnt.toNat < 16 := cnt.isLt
  rw [BitVec.toNat_sub, BitVec.toNat_ofNat]
  omega

/-- A frame dispatched in cycle 0: the state after it is in Playing with the frame's ticks to wait, and no cancellation
is pending. -/
theorem playing_of_dispatchAt_zero {ins : Nat → InputLine} {s : State} {f : SoundFrame} (hinv : Inv s)
    (h : dispatchAt ins s 0 = some f) :
    ∃ u, drive ins 1 s = .next u ∧ u.regs.st = .playing ∧ u.regs.cnt.toNat = 2 ^ f.fd.toNat ∧ u.regs.cp = false := by
  obtain ⟨u, hu, ho, -⟩ := drive_succ_of_inv (ins := ins) (n := 0) (rfl : drive ins 0 s = .next s) hinv
  rw [dispatchAt_of hu] at h
  cases ho with
  | @fetched S buf w _ _ hst =>
    obtain rfl : decodeWord w = f := Option.some.inj h
    exact ⟨_, hu, rfl, toNat_ofNat_durTicks _, (hinv.loadingClear hst).1⟩
  | _ => simp at h

/-- A CANCEL seen in the `n` cycles after cycle 0, by the number of its cycle in the run. -/
theorem cancelSeen_shift_iff (ins : Nat → InputLine) (n : Nat) :
    cancelSeen (fun k => ins (1 + k)) n = true ↔ ∃ k, 1 ≤ k ∧ k ≤ n ∧ (ins k).isCancel = true := by
  rw [cancelSeen_iff]
  constructor
  · rintro ⟨k, hk, hc⟩
    exact ⟨1 + k, by omega, by omega, hc⟩
  · rintro ⟨k, h1, hk, hc⟩
    exact ⟨k - 1, by omega, by rwa [Nat.add_sub_cancel' h1]⟩

section
variable {ins : Nat → InputLine} {s u : State} {n : Nat} (hu : drive ins 1 s = .next u) (hst : u.regs.st = .playing)
include hu hst

/-- From cycle 1 on, a wait that has not ended. -/
theorem wait_goes_on_after_one (hr : ∀ k, 1 ≤ k → k ≤ n → (ins k).isReset = false)
    (hticks : ticksFrom ins 1 n < u.regs.cnt.toNat) :
    ∃ t, drive ins (n + 1) s = .next t ∧ t.regs.st = .playing
      ∧ t.regs.cnt.toNat = u.regs.cnt.toNat - ticksFrom ins 1 n ∧ (1 ≤ n → t.port = none) := by
  rw [← ticksFrom_shift] at hticks ⊢
  obtain ⟨t, ht, hregs, -, -, hport⟩ :=
    wait_goes_on (fun k => ins (1 + k)) u hst n (fun k hk => hr (1 + k) (by omega) (by omega)) hticks
  refine ⟨t, ?_, by simp [hregs, hst], ?_, hport⟩
  · rw [Nat.add_comm n 1, drive_add_of hu, ht]
  · simp only [hregs, toNat_cnt_sub_ticks hticks]

/-- From cycle 1 on, the cycle of the wait's last tick. -/
theorem wait_ends_after_one (hr : ∀ k, 1 ≤ k → k ≤ n + 1 → (ins k).isReset = false)
    (hticks : ticksFrom ins 1 (n + 1) = u.regs.cnt.toNat) (htick : (ins (n + 1)).isTick = true) :
    ∃ t, drive ins (n + 2) s = .next t ∧ t.port = none ∧ t.regs.cnt = 0#4
      ∧ t.regs.st = waitEndState (u.regs.cp || cancelSeen (fun k => ins (1 + k)) (n + 1)) := by
  rw [Nat.add_comm n 1] at htick
  rw [ticksFrom_succ, htick, if_pos rfl, ← ticksFrom_shift] at hticks
  obtain ⟨t, ht, hregs, -, -, hport⟩ :=
    wait_ends (fun k => ins (1 + k)) u hst n (fun k hk => hr (1 + k) (by omega) (by omega)) hticks htick
  refine ⟨t, ?_, hport, by simp [hregs], by simp [hregs]⟩
  rw [Nat.add_comm n 2, show 2 + n = 1 + (n + 1) by omega, drive_add_of hu, ht]

end

/-- Settles O58: the cycles after the dispatch are a wait from the state the dispatch leaves. -/
theorem waitLastsTwoToTheFdTicks : Obligations.WaitLastsTwoToTheFdTicks := by
  unfold Obligations.WaitLastsTwoToTheFdTicks
  intro ins s f n hinv hf hr
  obtain ⟨u, hu, hst, hcnt, hcp⟩ := playing_of_dispatchAt_zero hinv hf
  rw [← hcnt]
  refine ⟨wait_goes_on_after_one hu hst hr, fun hticks htick => ?_⟩
  cases n with
  | zero =>
    have hpos : 1 ≤ u.regs.cnt.toNat := hcnt ▸ Nat.one_le_two_pow
    simp [ticksFrom] at hticks
    omega
  | succ n =>
    obtain ⟨t, ht, hport, hzero, hend⟩ := wait_ends_after_one hu hst hr hticks htick
    rw [hcp, Bool.false_or] at hend
    refine ⟨t, ht, hport, hzero, fun hcan => ?_, fun hcan => ?_⟩
    · rw [hend, (cancelSeen_shift_iff ins (n + 1)).2 hcan, waitEndState, if_pos rfl]
    · have hseen : ¬cancelSeen (fun k => ins (1 + k)) (n + 1) = true := by
        rw [cancelSeen_shift_iff]
        rintro ⟨k, h1, hk, hc⟩
        simp [hcan k h1 hk] at hc
      rw [hend, waitEndState, if_neg hseen]

/-- A wait that a tick ends with a cancellation pending leaves the sequencer in Cancelled, which holds without START and
reset (R105, R106). -/
theorem cancelled_after_wait {ins : Nat → InputLine} {s : State} (hst : s.regs.st = .playing)
    (hcnt : 1 ≤ s.regs.cnt.toNat) (hcan : (ins 0).isCancel = true) (n : Nat)
    (hquiet : ∀ k, k < n → (ins k).isReset = false ∧ (ins k).isStart = false)
    (hticks : s.regs.cnt.toNat ≤ ticksFrom ins 0 n) :
    ∃ t, drive ins n s = .next t ∧ t.regs.st = .cancelled ∧ t.regs.cp = true := by
  induction n with
  | zero =>
    simp [ticksFrom] at hticks
    omega
  | succ n ih =>
    by_cases hover : s.regs.cnt.toNat ≤ ticksFrom ins 0 n
    · obtain ⟨t, ht, htst, htcp⟩ := ih (fun k hk => hquiet k (by omega)) hover
      obtain ⟨hr, hs⟩ := hquiet n (by omega)
      exact ⟨_, (drive_succ_of ht).trans (runCycle_held _ hr hs (.inr (.inl htst))), htst, htcp⟩
    · have hlast : ticksFrom ins 0 n + 1 = s.regs.cnt.toNat ∧ (ins n).isTick = true := by
        rw [ticksFrom_succ, Nat.zero_add] at hticks
        split at hticks
        · exact ⟨by omega, ‹_›⟩
        · omega
      have hseen : cancelSeen ins (n + 1) = true := (cancelSeen_iff ins (n + 1)).2 ⟨0, by omega, hcan⟩
      obtain ⟨t, ht, hregs, -⟩ := wait_ends ins s hst n (fun k hk => (hquiet k hk).1) hlast.1 hlast.2
      exact ⟨t, ht, by simp [hregs, hseen, waitEndState], by simp [hregs, hseen]⟩

/-- Settles O57: the wait goes on while its ticks last, with the CANCEL latched, and ends in Cancelled. -/
theorem cancelledWaitRunsToItsEnd : Obligations.CancelledWaitRunsToItsEnd := by
  unfold Obligations.CancelledWaitRunsToItsEnd
  intro ins s n hinv hst hcan hquiet hn
  by_cases hticks : ticksFrom ins 0 n < s.regs.cnt.toNat
  · have hseen : cancelSeen ins n = true := (cancelSeen_iff ins n).2 ⟨0, hn, hcan⟩
    obtain ⟨t, ht, hregs, -⟩ := wait_goes_on ins s hst n (fun k hk => (hquiet k hk).1) hticks
    refine ⟨t, ht, by simp [hregs, hseen], fun _ => ⟨by simp [hregs, hst], ?_⟩, fun hover => by omega⟩
    simp only [hregs, toNat_cnt_sub_ticks hticks]
  · obtain ⟨t, ht, hend, hcp⟩ := cancelled_after_wait hst (hinv.playingCnt hst).1 hcan n hquiet (by omega)
    exact ⟨t, ht, hcp, fun hlt => absurd hlt hticks, fun _ => hend⟩

/-- Settles O52: each cycle without a tick keeps every register but `cp`, and clears the port. -/
theorem playingHoldsWithoutTick : Obligations.PlayingHoldsWithoutTick := by
  unfold Obligations.PlayingHoldsWithoutTick
  intro ins s n hst hquiet
  induction n with
  | zero => exact ⟨s, rfl, hst, rfl, rfl, rfl, rfl, rfl⟩
  | succ n ih =>
    obtain ⟨t, ht, htst, hcnt, hbi, hoff, hsnd, hdisp⟩ := ih fun k hk => hquiet k (by omega)
    obtain ⟨hr, htick⟩ := hquiet n (by omega)
    have hu : drive ins (n + 1) s = .next ((t.driven (ins n)).beginCycle.latchCancel (ins n)) := by
      rw [drive_succ_of ht, step_playing htst hr]
      simp [htick]
    exact ⟨_, hu, htst, hcnt, hbi, hoff, hsnd, by simp [dispatched_succ_of hu, hdisp]⟩

end Sys2Proof.Machine

namespace Sys2Proof.Machine

/-! ### The frame stream and the words ahead of the cursor (R108) -/

/-- A buffer's words are as many as its whole frames. -/
theorem length_bufferWords (buf : SoundBuffer) : (bufferWords buf).length = buf.length / 4 := by
  induction buf using bufferWords.induct with
  | case1 b0 b1 b2 b3 rest ih =>
    simp only [bufferWords, List.length_cons, ih]
    omega
  | case2 buf hshort =>
    match buf with
    | [] | [_] | [_, _] | [_, _, _] => simp [bufferWords]
    | b0 :: b1 :: b2 :: b3 :: rest => exact (hshort b0 b1 b2 b3 rest rfl).elim

/-- Where fewer than four bytes are left, no word is. -/
theorem bufferWords_of_short {buf : SoundBuffer} (h : buf.length < 4) : bufferWords buf = [] := by
  rw [← List.length_eq_zero_iff, length_bufferWords]
  omega

/-- The words of two buffers joined at a frame boundary are those of the one and then those of the other. -/
theorem bufferWords_append {a : SoundBuffer} (b : SoundBuffer) (h : a.length % 4 = 0) :
    bufferWords (a ++ b) = bufferWords a ++ bufferWords b := by
  induction a using bufferWords.induct with
  | case1 b0 b1 b2 b3 rest ih =>
    simp only [List.length_cons] at h
    simp [bufferWords, ih (by omega)]
  | case2 a hshort =>
    match a with
    | [] => rfl
    | [_] | [_, _] | [_, _, _] => simp at h
    | b0 :: b1 :: b2 :: b3 :: rest => exact (hshort b0 b1 b2 b3 rest rfl).elim

/-- The stream of a sound whose buffers are whole frames is that of its buffers joined (R109). -/
theorem bufferWords_flatten {S : NamedSound} (h : ∀ buf ∈ S, buf.length % 4 = 0) :
    bufferWords S.flatten = frameStream S := by
  induction S with
  | nil => rfl
  | cons buf S ih =>
    rw [List.forall_mem_cons] at h
    rw [List.flatten_cons, bufferWords_append _ h.1, ih h.2]
    rfl

/-- The word at an offset is the first of the words from there on. -/
theorem bufferWords_drop {buf : SoundBuffer} {o : Nat} {w : Word32} (h : readWord buf o = some w) :
    bufferWords (buf.drop o) = w :: bufferWords (buf.drop (o + 4)) := by
  have hwhole : o + 4 ≤ buf.length := (readWord_isSome buf o).1 (by rw [h]; rfl)
  obtain ⟨b0, b1, b2, b3, rest, hdrop, hread⟩ := readWord_of_le buf o hwhole
  obtain rfl : wordOfBytes b0 b1 b2 b3 = w := Option.some.inj (hread.symm.trans h)
  rw [← List.drop_drop, hdrop]
  rfl

/-- The words of a sound from a cursor on. -/
def wordsAhead (S : NamedSound) (bi off : Nat) : List Word32 :=
  bufferWords ((S[bi]?.getD []).drop off) ++ frameStream (S.drop (bi + 1))

/-- At the start of a buffer, the words ahead are those of it and of the buffers after it. -/
theorem wordsAhead_start {S : NamedSound} {bi : Nat} (h : bi < S.length) :
    wordsAhead S bi 0 = frameStream (S.drop bi) := by
  rw [List.drop_eq_getElem_cons h, wordsAhead, List.getElem?_eq_getElem h]
  rfl

/-- A word read at the cursor is the first ahead, and the cursor four bytes on has the rest ahead. -/
theorem wordsAhead_read {S : NamedSound} {buf : SoundBuffer} {bi off : Nat} {w : Word32} (hb : S[bi]? = some buf)
    (h : readWord buf off = some w) : wordsAhead S bi off = w :: wordsAhead S bi (off + 4) := by
  rw [wordsAhead, wordsAhead, hb, Option.getD_some, bufferWords_drop h]
  rfl

/-- At the end of a buffer, the words ahead are those of the buffers after it. -/
theorem wordsAhead_end {S : NamedSound} {buf : SoundBuffer} {bi off : Nat} (hb : S[bi]? = some buf)
    (h : buf.length < off + 4) : wordsAhead S bi off = frameStream (S.drop (bi + 1)) := by
  have hshort : (buf.drop off).length < 4 := by
    rw [List.length_drop]
    omega
  rw [wordsAhead, hb, Option.getD_some, bufferWords_of_short hshort]
  rfl

/-! ### What a run has played (R108) -/

/-- The state `t` of a run of the sound `S` stands in its stream after the words `done`, none of which is terminal. -/
structure Played (S : NamedSound) (done : List Word32) (t : State) : Prop where
  sound : t.sound? = some S
  stream : frameStream S = done ++ wordsAhead S t.regs.bi t.regs.off
  notTerminal : ∀ w ∈ done, isTerminal t.params w = false

/-- What is played depends on the sound, the words ahead and the parameters only. -/
theorem Played.congr {S : NamedSound} {done : List Word32} {t u : State} (h : Played S done t)
    (hsound : u.sound? = t.sound?)
    (hahead : wordsAhead S u.regs.bi u.regs.off = wordsAhead S t.regs.bi t.regs.off) (hparams : u.params = t.params) :
    Played S done u :=
  ⟨hsound.trans h.sound, hahead ▸ h.stream, hparams ▸ h.notTerminal⟩

/-- The next word of the stream is played. -/
theorem Played.next {S : NamedSound} {done : List Word32} {t u : State} {w : Word32} (h : Played S done t)
    (hsound : u.sound? = t.sound?)
    (hahead : wordsAhead S t.regs.bi t.regs.off = w :: wordsAhead S u.regs.bi u.regs.off)
    (hparams : u.params = t.params) (hw : isTerminal t.params w = false) : Played S (done ++ [w]) u where
  sound := hsound.trans h.sound
  stream := by rw [h.stream, hahead, List.append_cons]
  notTerminal := by simpa [or_imp, forall_and, hparams, hw] using h.notTerminal

/-- One cycle of a run: it dispatches nothing and stays in its place in the stream, or dispatches the next word. -/
theorem Played.cycle {S : NamedSound} {done : List Word32} {l : InputLine} {t u : State} (h : Played S done t)
    (ho : CycleOutcome l t u) (hport : t.port = none) (hr : l.isReset = false) (hstart : startsRun l t = false) :
    ∃ more, Played S (done ++ more) u ∧ u.port.toList = more.map decodeWord := by
  have stays {v : State} (hv : Played S done v) (hnone : v.port = none) :
      ∃ more, Played S (done ++ more) v ∧ v.port.toList = more.map decodeWord :=
    ⟨[], (List.append_nil done).symm ▸ hv, by rw [hnone]; rfl⟩
  cases ho with
  | reset hr' => simp [hr] at hr'
  | started _ hs ha => simp [startsRun, hr, hs, ha] at hstart
  | @fetched S' buf w _ _ _ hS hb hw hn =>
    obtain rfl : S = S' := Option.some.inj (h.sound.symm.trans hS)
    exact ⟨[w], h.next rfl (wordsAhead_read hb hw) rfl hn, rfl⟩
  | @crossed S' buf _ _ _ hS hb hlen hn =>
    obtain rfl : S = S' := Option.some.inj (h.sound.symm.trans hS)
    exact stays (h.congr rfl ((wordsAhead_start hn).trans (wordsAhead_end hb hlen).symm) rfl) hport
  | held | cancelled | waiting | ticked | terminal | exhausted => exact stays (h.congr rfl rfl rfl) hport

/-- The cycle of a START that is acted on, the first of a run (R93): nothing is dispatched. -/
theorem drive_one_started {ins : Nat → InputLine} {s : State} (h : startsRun (ins 0) s = true) :
    drive ins 1 s = .next ((s.driven (ins 0)).beginCycle.doStart (ins 0).sndIn) ∧ dispatched ins s 1 = [] := by
  have hdrive : drive ins 1 s = .next ((s.driven (ins 0)).beginCycle.doStart (ins 0).sndIn) :=
    runCycle_started (s := (s.driven (ins 0)).beginCycle) h
  exact ⟨hdrive, by rw [dispatched_succ_of hdrive]; rfl⟩

/-- After an accepted START nothing of the sound has been played. -/
theorem played_doStart (s : State) (r : Ref) : Played (s.mem.sound r) [] (s.doStart r) := by
  refine ⟨rfl, ?_, nofun⟩
  show frameStream (s.mem.sound r) = wordsAhead (s.mem.sound r) 0 0
  cases s.mem.sound r with
  | nil => rfl
  | cons b rest => rfl

/-- A run of a sound after one cycle or more, whatever CANCELs come: it has dispatched words of the stream from its
start on. -/
theorem drive_played {ins : Nat → InputLine} {s : State} (hstart : startsRun (ins 0) s = true) (n : Nat)
    (hrun : SameRun ins s (n + 1)) :
    ∃ t done, drive ins (n + 1) s = .next t ∧ Inv t ∧ Played (s.mem.sound (ins 0).sndIn) done t
      ∧ dispatched ins s (n + 1) = done.map decodeWord := by
  induction n with
  | zero =>
    obtain ⟨hdrive, hdisp⟩ := drive_one_started hstart
    exact ⟨_, [], hdrive, inv_doStart _ _, played_doStart (s.driven (ins 0)).beginCycle _, hdisp⟩
  | succ n ih =>
    obtain ⟨t, done, ht, hinv, hplayed, hdisp⟩ := ih fun k t h1 hk => hrun k t h1 (by omega)
    obtain ⟨hr, hns⟩ := hrun (n + 1) t (by omega) (by omega) ht
    obtain ⟨u, hu, ho, hinv'⟩ := drive_succ_of_inv ht hinv
    have hbegin : Played (s.mem.sound (ins 0).sndIn) done (t.driven (ins (n + 1))).beginCycle :=
      hplayed.congr rfl rfl rfl
    obtain ⟨more, hmore, hport⟩ := hbegin.cycle ho rfl hr hns
    exact ⟨u, done ++ more, hu, hinv', hmore, by rw [dispatched_succ_of hu, hdisp, hport, List.map_append]⟩

/-- Settles O53: what a run has played is the start of the stream, and the words ahead are the rest. -/
theorem dispatchesArePrefixOfStream : Obligations.DispatchesArePrefixOfStream := by
  unfold Obligations.DispatchesArePrefixOfStream
  intro ins s n hstart hrun
  cases n with
  | zero => exact ⟨_, rfl⟩
  | succ n =>
    obtain ⟨t, done, -, -, hplayed, hdisp⟩ := drive_played hstart n hrun
    exact ⟨(wordsAhead _ t.regs.bi t.regs.off).map decodeWord, by rw [hplayed.stream, List.map_append, hdisp]⟩

end Sys2Proof.Machine

namespace Sys2Proof.Machine

/-! ### A plain run of an accepted sound, cycle by cycle (R110, R112) -/

/-- The state of the sequencer after a run that goes on. -/
theorem stateAfter_of {ins : Nat → InputLine} {n : Nat} {s t : State} (h : drive ins n s = .next t) :
    stateAfter ins s n = some t.regs.st := by
  rw [stateAfter, h]

/-- The cycles that begin in Playing, one cycle more. -/
theorem playingCycles_succ {ins : Nat → InputLine} {n : Nat} {s t : State} (h : drive ins n s = .next t) :
    playingCycles ins s (n + 1) = playingCycles ins s n ++ if t.regs.st = .playing then [n] else [] := by
  simp [playingCycles, List.range_succ, List.filter_append, List.filter_cons, stateAfter_of h]

/-- The ticks that fall in cycles that begin in Playing. -/
def playingTicks (ins : Nat → InputLine) (s : State) (n : Nat) : Nat :=
  (playingCycles ins s n).countP fun k => (ins k).isTick

/-- The ticks in Playing, one cycle more. -/
theorem playingTicks_succ {ins : Nat → InputLine} {n : Nat} {s t : State} (h : drive ins n s = .next t) :
    playingTicks ins s (n + 1)
      = playingTicks ins s n + if t.regs.st = .playing ∧ (ins n).isTick = true then 1 else 0 := by
  rw [playingTicks, playingCycles_succ h, List.countP_append, playingTicks]
  by_cases hst : t.regs.st = .playing <;> simp [hst, List.countP_cons]

/-- `done` is all that the sound has before its first terminal word, and `why` says whether there is one (R110). -/
def RanOut (p : Params) (S : NamedSound) (done : List Word32) (why : Reason) : Prop :=
  done = playedWords p S
    ∧ ((why = .terminal ∧ done.length < (frameStream S).length)
      ∨ (why = .exhausted ∧ done.length = (frameStream S).length))

/-- Words none of which is terminal are played whole, and then what is played of the words after them. -/
theorem playedWords_append {p : Params} {S : NamedSound} {done rest : List Word32} (h : frameStream S = done ++ rest)
    (hdone : ∀ w ∈ done, isTerminal p w = false) :
    playedWords p S = done ++ rest.takeWhile fun w => !isTerminal p w := by
  rw [playedWords, h, List.takeWhile_append_of_pos fun w hw => by simp [hdone w hw]]

/-- A run at a terminal word has run out, for that reason. -/
theorem Played.ranOut_terminal {S : NamedSound} {done rest : List Word32} {w : Word32} {t : State}
    (h : Played S done t) (hw : isTerminal t.params w = true)
    (hahead : wordsAhead S t.regs.bi t.regs.off = w :: rest) : RanOut t.params S done .terminal := by
  have hstream : frameStream S = done ++ w :: rest := by rw [h.stream, hahead]
  exact ⟨by simp [playedWords_append hstream h.notTerminal, hw], .inl ⟨rfl, by simp [hstream]⟩⟩

/-- A run with no word ahead has run out, for that reason. -/
theorem Played.ranOut_exhausted {S : NamedSound} {done : List Word32} {t : State} (h : Played S done t)
    (hahead : wordsAhead S t.regs.bi t.regs.off = []) : RanOut t.params S done .exhausted := by
  have hstream : frameStream S = done ++ [] := by rw [h.stream, hahead]
  exact ⟨by simp [playedWords_append hstream h.notTerminal], .inr ⟨rfl, by simp [hstream]⟩⟩

/-- What one cycle of a run that goes on, without CANCEL, adds to the counts: a dispatch, a crossing or a cycle of a
wait, and to a wait's ticks what it takes from `cnt`. -/
structure Advances (l : InputLine) (t u : State) : Prop where
  running : u.regs.st = .loading ∨ u.regs.st = .playing
  notPending : u.regs.cp = false
  cycles : u.port.toList.length + u.regs.bi + (if t.regs.st = .playing then 1 else 0) = t.regs.bi + 1
  ticks : (if t.regs.st = .playing ∧ l.isTick = true then 1 else 0) + u.regs.cnt.toNat
    = t.regs.cnt.toNat + (u.port.toList.map durTicks).sum

/-- What the last cycle of a run without CANCEL does: from Loading to Stopped, with the reason for which the sound has
run out. -/
structure Ends (S : NamedSound) (done : List Word32) (t u : State) : Prop where
  loading : t.regs.st = .loading
  stopped : u.regs.st = .stopped
  noDispatch : u.port = none
  ranOut : RanOut t.params S done u.regs.reason

/-- A tick of a wait that is not cancelled (R104, R105). -/
theorem advances_ticked {l : InputLine} {t : State} (hinv : Inv t) (hst : t.regs.st = .playing)
    (hcp : (t.regs.cp || l.isCancel) = false) (ht : l.isTick = true) (hport : t.port = none) :
    Advances l t (t.latchCancel l).waitTick where
  running := by
    by_cases hlast : t.regs.cnt = 1#4 <;> simp [hlast, hcp, hst, waitEndState]
  notPending := hcp
  cycles := by simp [hport, hst]
  ticks := by
    have hcnt := hinv.playingCnt hst
    have hless : 1 + (t.regs.cnt - 1#4).toNat = t.regs.cnt.toNat := by bv_omega
    simpa [hport, hst, ht] using hless

/-- A cycle of a run without CANCEL advances the run or ends it. -/
theorem Played.advances_or_ends {S : NamedSound} {done : List Word32} {l : InputLine} {t u : State}
    (h : Played S done t) (hinv : Inv t) (ho : CycleOutcome l t u) (hport : t.port = none) (hr : l.isReset = false)
    (hc : l.isCancel = false) (hrun : t.regs.st = .loading ∨ t.regs.st = .playing) (hcp : t.regs.cp = false) :
    Advances l t u ∨ Ends S done t u := by
  cases ho with
  | reset hr' => simp [hr] at hr'
  | held _ hst => simp [hst] at hrun
  | started _ _ ha => rcases hrun with hrun | hrun <;> simp [hrun, SeqState.acceptsStart] at ha
  | cancelled _ hc' => simp [hc] at hc'
  | waiting _ hst ht => exact .inl ⟨.inr hst, by simp [hcp, hc], by simp [hport, hst], by simp [hport, ht]⟩
  | ticked _ hst ht => exact .inl (advances_ticked hinv hst (by simp [hcp, hc]) ht hport)
  | @fetched S' buf w _ _ hst =>
    have hcnt := (hinv.loadingClear hst).2
    refine .inl ⟨.inr rfl, hcp, by simp [hst, Nat.add_comm], ?_⟩
    simp only [State.fetched_regs, State.fetched_port, toNat_ofNat_durTicks]
    simp [hst, hcnt]
  | @terminal S' buf w _ _ hst hS hb hw hn =>
    obtain rfl : S = S' := Option.some.inj (h.sound.symm.trans hS)
    exact .inr ⟨hst, rfl, hport, h.ranOut_terminal hn (wordsAhead_read hb hw)⟩
  | crossed _ _ hst => exact .inl ⟨.inl hst, hcp, by simp [hport, hst], by simp [hport, hst]⟩
  | @exhausted S' buf _ _ hst hS hb hlen hn =>
    obtain rfl : S = S' := Option.some.inj (h.sound.symm.trans hS)
    refine .inr ⟨hst, rfl, hport, h.ranOut_exhausted ?_⟩
    rw [wordsAhead_end hb hlen, List.drop_eq_nil_of_le hn]
    rfl

/-- After `n` cycles a plain run of the accepted sound `S` goes on in the state `t` and has played the words `done`;
every cycle but the first is a dispatch, a crossing or a cycle in Playing, and the ticks in Playing and those still to
come are the ticks of the frames dispatched. -/
structure RunGoing (ins : Nat → InputLine) (s : State) (S : NamedSound) (n : Nat) (done : List Word32) (t : State) :
    Prop where
  driven : drive ins n s = .next t
  inv : Inv t
  params : t.params = s.params
  played : Played S done t
  running : t.regs.st = .loading ∨ t.regs.st = .playing
  notPending : t.regs.cp = false
  before : ∀ m, 1 ≤ m → m < n → stateAfter ins s m = some .loading ∨ stateAfter ins s m = some .playing
  dispatches : dispatched ins s n = done.map decodeWord
  cycles : n = 1 + (dispatched ins s n).length + t.regs.bi + (playingCycles ins s n).length
  ticks : playingTicks ins s n + t.regs.cnt.toNat = ((dispatched ins s n).map durTicks).sum

/-- A plain run of the accepted sound `S` ends in cycle `n - 1`, having played the words `done`, with the counts of
R112. -/
structure RunOver (ins : Nat → InputLine) (s : State) (S : NamedSound) (n : Nat) (done : List Word32) (t : State) :
    Prop where
  driven : drive ins n s = .next t
  stopped : t.regs.st = .stopped
  endsAt : RunEndsAt ins s n
  dispatches : dispatched ins s n = done.map decodeWord
  ranOut : RanOut s.params S done t.regs.reason
  cycles : n ≤ 1 + done.length + (S.length - 1) + 1 + (playingCycles ins s n).length
  ticks : playingTicks ins s n = ((dispatched ins s n).map durTicks).sum

section
variable {ins : Nat → InputLine} {s : State} {S : NamedSound} {n : Nat} {done : List Word32} {t : State}

/-- In a run that goes on the buffer index names a buffer. -/
theorem RunGoing.bi_lt (h : RunGoing ins s S n done t) : t.regs.bi < S.length := by
  obtain ⟨S', buf, hS, hb, -⟩ := h.inv.cursorInSound h.running
  obtain rfl : S = S' := Option.some.inj (h.played.sound.symm.trans hS)
  exact (List.getElem?_eq_some_iff.1 hb).1

/-- A run that goes on has been in Loading or Playing since its first cycle. -/
theorem RunGoing.since (h : RunGoing ins s S n done t) (m : Nat) (h1 : 1 ≤ m) (hm : m < n + 1) :
    stateAfter ins s m = some .loading ∨ stateAfter ins s m = some .playing := by
  rcases Nat.lt_succ_iff_lt_or_eq.1 hm with hlt | rfl
  · exact h.before m h1 hlt
  · simpa [stateAfter_of h.driven] using h.running

/-- A run that goes on acts on no START (R94). -/
theorem RunGoing.startsRun_false (h : RunGoing ins s S n done t) (l : InputLine) : startsRun l t = false := by
  rw [startsRun, acceptsStart_of_busy h.running, Bool.and_false]

/-- One cycle more that advances the run. -/
theorem RunGoing.extend {more : List Word32} {u : State} (h : RunGoing ins s S n done t)
    (hu : drive ins (n + 1) s = .next u) (hinv : Inv u) (hparams : u.params = s.params)
    (hplayed : Played S (done ++ more) u) (hport : u.port.toList = more.map decodeWord)
    (hadv : Advances (ins n) (t.driven (ins n)).beginCycle u) : RunGoing ins s S (n + 1) (done ++ more) u where
  driven := hu
  inv := hinv
  params := hparams
  played := hplayed
  running := hadv.running
  notPending := hadv.notPending
  before := h.since
  dispatches := by rw [dispatched_succ_of hu, h.dispatches, hport, List.map_append]
  cycles := by
    have hbefore := h.cycles
    have hstep : u.port.toList.length + u.regs.bi + (if t.regs.st = .playing then 1 else 0) = t.regs.bi + 1 :=
      hadv.cycles
    rw [dispatched_succ_of hu, playingCycles_succ h.driven, List.length_append, List.length_append,
      apply_ite List.length, List.length_singleton, List.length_nil]
    omega
  ticks := by
    have hbefore := h.ticks
    have hstep : (if t.regs.st = .playing ∧ (ins n).isTick = true then 1 else 0) + u.regs.cnt.toNat
        = t.regs.cnt.toNat + (u.port.toList.map durTicks).sum := hadv.ticks
    rw [dispatched_succ_of hu, playingTicks_succ h.driven, List.map_append, List.sum_append]
    omega

/-- One cycle more that ends the run: it begins in Loading, where no wait is left. -/
theorem RunGoing.finish {u : State} (h : RunGoing ins s S n done t) (hu : drive ins (n + 1) s = .next u)
    (hend : Ends S done (t.driven (ins n)).beginCycle u) : RunOver ins s S (n + 1) done u := by
  have hst : t.regs.st = .loading := hend.loading
  have hdisp : dispatched ins s (n + 1) = dispatched ins s n := by
    rw [dispatched_succ_of hu, hend.noDispatch]
    exact List.append_nil _
  have hcycles : playingCycles ins s (n + 1) = playingCycles ins s n := by simp [playingCycles_succ h.driven, hst]
  have hticks : playingTicks ins s (n + 1) = playingTicks ins s n := by simp [playingTicks_succ h.driven, hst]
  have hstopped : stateAfter ins s (n + 1) = some .stopped := by rw [stateAfter_of hu, hend.stopped]
  exact
    { driven := hu
      stopped := hend.stopped
      endsAt := ⟨by omega, .inl hstopped, h.since⟩
      dispatches := hdisp.trans h.dispatches
      ranOut := h.params ▸ hend.ranOut
      cycles := by
        have hbefore := h.cycles
        have hbi := h.bi_lt
        rw [h.dispatches, List.length_map] at hbefore
        rw [hcycles]
        omega
      ticks := by
        have hbefore := h.ticks
        rw [(h.inv.loadingClear hst).2] at hbefore
        rw [hticks, hdisp, ← hbefore]
        rfl }

/-- A run that goes on, one cycle more without reset and CANCEL: it goes on, or is over. -/
theorem RunGoing.step (h : RunGoing ins s S n done t) (hr : (ins n).isReset = false) (hc : (ins n).isCancel = false) :
    (∃ done' u, RunGoing ins s S (n + 1) done' u) ∨ ∃ u, RunOver ins s S (n + 1) done u := by
  obtain ⟨u, hu, ho, hinv⟩ := drive_succ_of_inv h.driven h.inv
  have hplayed : Played S done (t.driven (ins n)).beginCycle := h.played.congr rfl rfl rfl
  have hbegin : Inv (t.driven (ins n)).beginCycle := h.inv.congr rfl rfl
  rcases hplayed.advances_or_ends hbegin ho rfl hr hc h.running h.notPending with hadv | hend
  · obtain ⟨more, hmore, hport⟩ := hplayed.cycle ho rfl hr (h.startsRun_false (ins n))
    have hparams : u.params = s.params := ho.keeps_mem_params.2.trans h.params
    exact .inl ⟨done ++ more, u, h.extend hu hinv hparams hmore hport hadv⟩
  · exact .inr ⟨u, h.finish hu hend⟩

end

/-- The first cycle of a plain run of an accepted sound. -/
theorem runGoing_one {ins : Nat → InputLine} {s : State} {r : Ref} (h : PlainRun ins s r)
    (hacc : startResult s.params (s.mem.sound r) = (.loading, .none)) :
    ∃ t, RunGoing ins s (s.mem.sound r) 1 [] t := by
  obtain ⟨hstart, rfl, -⟩ := h
  obtain ⟨hdrive, hdisp⟩ := drive_one_started hstart
  have hplaying : playingCycles ins s 1 = [] := by
    have hne : s.regs.st ≠ .playing := by
      intro hst
      simp [startsRun, hst, SeqState.acceptsStart] at hstart
    rw [playingCycles_succ (n := 0) (rfl : drive ins 0 s = .next s), if_neg hne]
    rfl
  refine ⟨_, hdrive, inv_doStart _ _, rfl, played_doStart (s.driven (ins 0)).beginCycle _, ?_, rfl, ?_, hdisp, ?_, ?_⟩
  · simp [hacc]
  · omega
  · simp [hdisp, hplaying]
  · simp [playingTicks, hdisp, hplaying]

/-- A plain run of an accepted sound goes on or is over. -/
theorem runGoing_or_runOver {ins : Nat → InputLine} {s : State} {r : Ref} (h : PlainRun ins s r)
    (hacc : startResult s.params (s.mem.sound r) = (.loading, .none)) (n : Nat) :
    (∃ done t, RunGoing ins s (s.mem.sound r) (n + 1) done t)
      ∨ ∃ m ≤ n + 1, ∃ done t, RunOver ins s (s.mem.sound r) m done t := by
  induction n with
  | zero => exact .inl ⟨[], runGoing_one h hacc⟩
  | succ n ih =>
    obtain ⟨-, -, hplain⟩ := h
    obtain ⟨hr, hc⟩ := hplain (n + 1) (by omega)
    rcases ih with ⟨done, t, hgoing⟩ | ⟨m, hm, hover⟩
    · rcases hgoing.step hr hc with hgoing | ⟨u, hover⟩
      · exact .inl hgoing
      · exact .inr ⟨n + 2, le_rfl, done, u, hover⟩
    · exact .inr ⟨m, by omega, hover⟩

/-! ### The bound on a run (R112) -/

/-- Settles O59: the run that ends is over in that cycle and in no earlier one, and its counts are those of the
dispatches. -/
theorem runLengthIsBounded : Obligations.RunLengthIsBounded := by
  unfold Obligations.RunLengthIsBounded
  rintro ins s r S n hplain rfl hacc ⟨hpos, hend, hbefore⟩
  obtain ⟨k, rfl⟩ : ∃ k, n = k + 1 := ⟨n - 1, by omega⟩
  rcases runGoing_or_runOver hplain hacc k with ⟨done, t, hgoing⟩ | ⟨m, hm, done, t, hover⟩
  · rcases hgoing.since (k + 1) hpos (by omega) with hst | hst <;> simp [hst] at hend
  · obtain rfl : m = k + 1 := by
      by_contra hne
      have hstopped := stateAfter_of hover.driven
      rcases hbefore m hover.endsAt.1 (by omega) with hst | hst <;> simp [hst, hover.stopped] at hstopped
    obtain ⟨hdone, -⟩ := hover.ranOut
    have hticks := hover.ticks
    rw [hover.dispatches, List.map_map] at hticks
    rw [← hdone]
    exact ⟨hover.cycles, hticks⟩

/-! ### How a plain run ends (R110) -/

/-- Of the ticks that have come, those outside Playing are at most as many as the cycles outside Playing. -/
theorem ticksFrom_le (ins : Nat → InputLine) (s : State) (n : Nat) :
    ticksFrom ins 0 n + (playingCycles ins s n).length ≤ n + playingTicks ins s n := by
  have hticks := List.countP_eq_countP_filter_add (List.range n) (fun k => (ins k).isTick)
    fun k => stateAfter ins s k == some .playing
  have hcycles := List.length_eq_length_filter_add (l := List.range n) fun k => stateAfter ins s k == some .playing
  have hothers := List.countP_le_length (p := fun k => (ins k).isTick)
    (l := (List.range n).filter fun k => !(stateAfter ins s k == some .playing))
  rw [List.length_range] at hcycles
  simp only [ticksFrom, Nat.zero_add, playingTicks, playingCycles]
  omega

/-- Ticks without end: any number of them comes. -/
theorem ticksForever_unbounded {ins : Nat → InputLine} (h : TicksForever ins) (m : Nat) :
    ∃ n, m ≤ ticksFrom ins 0 n := by
  have hmono : Monotone (ticksFrom ins 0) := monotone_nat_of_le_succ fun n => by
    rw [ticksFrom_succ]
    omega
  induction m with
  | zero => exact ⟨0, Nat.zero_le _⟩
  | succ m ih =>
    obtain ⟨n, hn⟩ := ih
    obtain ⟨k, hk, htick⟩ := h n
    have hle : ticksFrom ins 0 n ≤ ticksFrom ins 0 k := hmono hk
    have hsucc : ticksFrom ins 0 (k + 1) = ticksFrom ins 0 k + 1 := by simp [ticksFrom_succ, htick]
    exact ⟨k + 1, by omega⟩

/-- A frame is applied for at most 8 ticks (30_encoding.md R52). -/
theorem durTicks_le (f : SoundFrame) : durTicks f ≤ 8 := by
  rw [← toNat_ofNat_durTicks]
  exact (cnt_of_durTicks f).2

/-- While a run goes on the ticks that have come are bounded by its sound. -/
theorem RunGoing.ticks_le {ins : Nat → InputLine} {s : State} {S : NamedSound} {n : Nat} {done : List Word32}
    {t : State} (h : RunGoing ins s S n done t) : ticksFrom ins 0 n ≤ 9 * (frameStream S).length + S.length := by
  have hbi := h.bi_lt
  have hcycles := h.cycles
  have hticks := h.ticks
  have hall := ticksFrom_le ins s n
  have hdur : ((dispatched ins s n).map durTicks).sum ≤ (dispatched ins s n).length * 8 := by
    simpa using List.sum_le_card_nsmul ((dispatched ins s n).map durTicks) 8 (by simp [durTicks_le])
  have hdone : (dispatched ins s n).length ≤ (frameStream S).length := by
    simp [h.dispatches, h.played.stream]
  omega

/-- A plain run of an accepted sound is over at some time, given ticks without end. -/
theorem plainRun_over {ins : Nat → InputLine} {s : State} {r : Ref} (h : PlainRun ins s r) (hticks : TicksForever ins)
    (hacc : startResult s.params (s.mem.sound r) = (.loading, .none)) :
    ∃ n done t, RunOver ins s (s.mem.sound r) n done t := by
  obtain ⟨n, hn⟩ :=
    ticksForever_unbounded hticks (9 * (frameStream (s.mem.sound r)).length + (s.mem.sound r).length + 1)
  have hlater : ticksFrom ins 0 n ≤ ticksFrom ins 0 (n + 1) := by
    rw [ticksFrom_succ]
    omega
  rcases runGoing_or_runOver h hacc n with ⟨done, t, hgoing⟩ | ⟨m, -, hover⟩
  · have hle := hgoing.ticks_le
    omega
  · exact ⟨m, hover⟩

/-- A run that START refuses ends in its first cycle (R93). -/
theorem plainRun_refused {ins : Nat → InputLine} {s : State} {r : Ref} (h : PlainRun ins s r)
    (href : (startResult s.params (s.mem.sound r)).1 = .stopped) :
    ∃ t, RunEndsAt ins s 1 ∧ drive ins 1 s = .next t ∧ t.regs.st = .stopped
      ∧ t.regs.reason = (startResult s.params (s.mem.sound r)).2 ∧ dispatched ins s 1 = [] := by
  obtain ⟨hstart, rfl, -⟩ := h
  obtain ⟨hdrive, hdisp⟩ := drive_one_started hstart
  have hends : RunEndsAt ins s 1 :=
    ⟨le_rfl, .inl ((stateAfter_of hdrive).trans (congrArg some href)), fun m h1 hm => by omega⟩
  exact ⟨_, hends, hdrive, href, rfl, hdisp⟩

/-- The stream of an accepted sound has a word for each four bytes. -/
theorem length_frameStream {S : NamedSound} (h : ∀ buf ∈ S, buf.length % 4 = 0) :
    (frameStream S).length * 4 = (S.map List.length).sum := by
  rw [← bufferWords_flatten h, length_bufferWords, List.length_flatten]
  refine Nat.div_mul_cancel (List.dvd_sum fun n hn => ?_)
  obtain ⟨buf, hbuf, rfl⟩ := List.mem_map.1 hn
  exact Nat.dvd_of_mod_eq_zero (h buf hbuf)

/-- An accepted sound is not refused as empty (R93). -/
theorem not_rejectsAsEmpty_of_accepted {p : Params} {S : NamedSound} (h : startResult p S = (.loading, .none)) :
    ¬RejectsAsEmpty S := by
  intro hrej
  obtain ⟨hst, -⟩ := (startOutcome_startResult p S).2.1 (not_rejectsAsTruncated_of_accepted h) hrej
  rw [h] at hst
  cases hst

/-- A run that is over has run out for the reason that its sound's words give. -/
theorem RanOut.reason {p : Params} {S : NamedSound} {done : List Word32} {why : Reason} (h : RanOut p S done why) :
    ((playedWords p S).length < (frameStream S).length → why = .terminal)
      ∧ ((playedWords p S).length = (frameStream S).length → why = .exhausted) := by
  obtain ⟨rfl, ⟨hwhy, hlen⟩ | ⟨hwhy, hlen⟩⟩ := h
  · exact ⟨fun _ => hwhy, fun heq => by omega⟩
  · exact ⟨fun hlt => by omega, fun _ => hwhy⟩

/-- Settles O54: a refused run ends in its first cycle, and an accepted one when the sound has run out. -/
theorem plainRunDispatchesUpToTerminal : Obligations.PlainRunDispatchesUpToTerminal := by
  unfold Obligations.PlainRunDispatchesUpToTerminal
  rintro ins s r S hplain hticks rfl
  by_cases hacc : startResult s.params (s.mem.sound r) = (.loading, .none)
  · obtain ⟨n, done, t, hover⟩ := plainRun_over hplain hticks hacc
    obtain ⟨hterminal, hexhausted⟩ := hover.ranOut.reason
    refine ⟨n, t, hover.endsAt, hover.driven, hover.stopped,
      fun hrej => absurd hrej (not_rejectsAsTruncated_of_accepted hacc),
      fun _ hrej => absurd hrej (not_rejectsAsEmpty_of_accepted hacc), fun _ _ => ⟨?_, hterminal, hexhausted, ?_⟩⟩
    · rw [hover.dispatches, hover.ranOut.1]
    · exact length_frameStream fun buf hbuf => length_mod_four_of_accepted hacc hbuf
  · have href : (startResult s.params (s.mem.sound r)).1 = .stopped := by
      rcases startResult_cases s.params (s.mem.sound r) with hres | hres | ⟨hres, -⟩
      · rw [hres]
      · rw [hres]
      · exact absurd hres hacc
    obtain ⟨htruncated, hempty, haccepted⟩ := startOutcome_startResult s.params (s.mem.sound r)
    obtain ⟨t, hends, hdrive, hst, hwhy, hdisp⟩ := plainRun_refused hplain href
    refine ⟨1, t, hends, hdrive, hst, fun hrej => ⟨?_, hdisp⟩, fun hnt hrej => ⟨?_, hdisp⟩, fun hnt hne => ?_⟩
    · exact hwhy.trans (htruncated hrej).2
    · exact hwhy.trans (hempty hnt hrej).2
    · exact absurd (href.symm.trans (haccepted hnt hne).1) (by decide)

/-! ### Buffer joins are invisible (R109) -/

/-- What two sounds with the same stream have before the first terminal word, and why they run out there, is the
same. -/
theorem RanOut.unique {p : Params} {S S' : NamedSound} {done done' : List Word32} {why why' : Reason}
    (hS : frameStream S' = frameStream S) (h : RanOut p S done why) (h' : RanOut p S' done' why') :
    done = done' ∧ why = why' := by
  have hplayed : playedWords p S' = playedWords p S := by rw [playedWords, hS, playedWords]
  obtain ⟨hterminal, hexhausted⟩ := h'.reason
  rw [hplayed, hS] at hterminal hexhausted
  obtain ⟨rfl, ⟨rfl, hlen⟩ | ⟨rfl, hlen⟩⟩ := h
  · exact ⟨(h'.1.trans hplayed).symm, (hterminal hlen).symm⟩
  · exact ⟨(h'.1.trans hplayed).symm, (hexhausted hlen).symm⟩

/-- Settles O55: both runs play out the same stream. -/
theorem bufferJoinsAreInvisible : Obligations.BufferJoinsAreInvisible := by
  unfold Obligations.BufferJoinsAreInvisible
  intro ins ins' s s' r r' hplain hplain' hticks hticks' hparams hjoin hacc hacc'
  rw [← hjoin, ← hparams] at hacc'
  obtain ⟨n, done, t, hover⟩ := plainRun_over hplain hticks hacc
  obtain ⟨n', done', t', hover'⟩ := plainRun_over hplain' hticks' hacc'
  have hstream : frameStream (s'.mem.sound r') = frameStream (s.mem.sound r) := by
    rw [hjoin, ← bufferWords_flatten fun buf hbuf => length_mod_four_of_accepted hacc hbuf]
    exact List.append_nil _
  obtain ⟨hdone, hwhy⟩ := hover.ranOut.unique hstream (hparams ▸ hover'.ranOut)
  refine ⟨n, n', t, t', hover.endsAt, hover'.endsAt, hover.driven, hover'.driven, ?_, ?_, hwhy⟩
  · rw [hover.dispatches, hover'.dispatches, hdone]
  · rw [hover.stopped, hover'.stopped]

end Sys2Proof.Machine

/-! ## No step stops, and entry to Stopped (60_exceptions.md) -/

namespace Sys2Proof.Machine

/-- Settles O20: each cycle that begins with the invariant answers a next state, whatever its inputs are. -/
theorem stepNeverStops : Obligations.StepNeverStops := by
  unfold Obligations.StepNeverStops
  exact fun _ hinv => step_isNext hinv

/-- Of all the outcomes of a cycle that begins in Loading, only a terminal frame and the end of the sound lead to
Stopped, and each does so by entry to Stopped with its cause (60_exceptions.md R134). -/
theorem CycleOutcome.eq_enterStopped {l : InputLine} {s t : State} (h : CycleOutcome l s t)
    (hst : s.regs.st = .loading) (ht : t.regs.st = .stopped) :
    ∃ why, (why = .terminal ∨ why = .exhausted) ∧ t = s.enterStopped why := by
  cases h with
  | terminal => exact ⟨.terminal, .inl rfl, rfl⟩
  | exhausted => exact ⟨.exhausted, .inr rfl, rfl⟩
  | reset | cancelled | fetched => cases ht
  | started _ _ hacc => simp [hst, SeqState.acceptsStart] at hacc
  | held _ hquiet => exact absurd hst hquiet.1
  | waiting _ hplay | ticked _ hplay => simp [hst] at hplay
  | crossed => simp [hst] at ht

/-- Settles O50: the step is entry to Stopped from the state that its cycle begins with, where the port is empty. -/
theorem entryToStoppedKeepsCursor : Obligations.EntryToStoppedKeepsCursor := by
  unfold Obligations.EntryToStoppedKeepsCursor
  intro s t l hst hstep ht
  obtain ⟨why, hwhy, rfl⟩ := (step_outcome hstep).eq_enterStopped hst ht
  exact ⟨why, hwhy, rfl, rfl⟩

end Sys2Proof.Machine

/-! ## The cadence of the dispatches (70_reset_and_hazards.md section 3) -/

namespace Sys2Proof.Machine

/-! ### The ticks of a regular time base (R151) -/

/-- With a tick each `Q` cycles, the ticks after cycle 0 are the tick periods that have begun since. -/
theorem ticksFrom_one_of_ticksEvery {Q a : Nat} {ins : Nat → InputLine} (h : TicksEvery Q a ins) (n : Nat) :
    a / Q + ticksFrom ins 1 n = (n + a) / Q := by
  induction n with
  | zero => simp [ticksFrom]
  | succ n ih =>
    have htick : (ins (1 + n)).isTick = true ↔ Q ∣ n + a + 1 := by
      rw [h, Nat.dvd_iff_mod_eq_zero, show 1 + n + a = n + a + 1 by omega]
    rw [ticksFrom_succ, ← Nat.add_assoc, ih, show n + 1 + a = n + a + 1 by omega, Nat.succ_div]
    simp only [htick]

/-- Where `d` tick periods have begun by cycle `n`, the `d`-th of them began in a cycle after cycle 0. -/
theorem exists_start_of_period {Q a d n : Nat} (hQ : 0 < Q) (hd : 0 < d) (h : a / Q + d ≤ (n + a) / Q) :
    ∃ m c, n = m + c ∧ m + a = Q * (a / Q + d) := by
  have hnow : (a / Q + d) * Q ≤ n + a := (Nat.le_div_iff_mul_le hQ).1 h
  have hlater : a < Q * (a / Q + 1) := Nat.lt_mul_div_succ a hQ
  have hmono : Q * (a / Q + 1) ≤ Q * (a / Q + d) := Nat.mul_le_mul_left Q (by omega)
  rw [Nat.mul_comm] at hnow
  exact ⟨Q * (a / Q + d) - a, n + a - Q * (a / Q + d), by omega, by omega⟩

/-! ### The crossings from a cursor on (R101, R151) -/

/-- The number of consecutive empty buffers of a sound from buffer `i` on. -/
def emptyRunAt (S : NamedSound) (i : Nat) : Nat := ((S.drop i).takeWhile (·.isEmpty)).length

/-- The most crossings that a run can make from the cursor on before it reads a frame or stops: none where a frame is
left in the buffer or no buffer follows, else one, and one over each empty buffer that follows. -/
def crossingsAhead (S : NamedSound) (bi off : Nat) : Nat :=
  if (S[bi]?.getD []).length < off + 4 ∧ bi + 1 < S.length then emptyRunAt S (bi + 1) + 1 else 0

/-- At an empty buffer, the empty buffers are that one and those after it. -/
theorem emptyRunAt_of_nil {S : NamedSound} {i : Nat} (h : S[i]? = some []) :
    emptyRunAt S i = emptyRunAt S (i + 1) + 1 := by
  obtain ⟨hi, hget⟩ := List.getElem?_eq_some_iff.1 h
  simp [emptyRunAt, List.drop_eq_getElem_cons hi, hget]

/-- No run of empty buffers is longer than the longest. -/
theorem emptyRunAt_le_longestEmptyRun (S : NamedSound) (i : Nat) : emptyRunAt S i ≤ longestEmptyRun S := by
  induction S generalizing i with
  | nil => simp [emptyRunAt]
  | cons buf rest ih =>
    cases i with
    | zero => exact le_max_left _ _
    | succ i => exact (ih i).trans (le_max_right _ _)

/-- At a buffer that is exhausted with another after it, one crossing is ahead and those over the empty buffers. -/
theorem crossingsAhead_of_exhausted {S : NamedSound} {buf : SoundBuffer} {bi off : Nat} (hb : S[bi]? = some buf)
    (hlen : buf.length < off + 4) (hn : bi + 1 < S.length) : crossingsAhead S bi off = emptyRunAt S (bi + 1) + 1 :=
  if_pos ⟨by rwa [hb, Option.getD_some], hn⟩

/-- At the start of a buffer of whole frames, the crossings ahead are at most the empty buffers from it on. -/
theorem crossingsAhead_start_le {S : NamedSound} (hwhole : ∀ buf ∈ S, buf.length % 4 = 0) (bi : Nat) :
    crossingsAhead S bi 0 ≤ emptyRunAt S bi := by
  unfold crossingsAhead
  split
  · rename_i hshort
    obtain ⟨hlen, hn⟩ := hshort
    have hb : S[bi]? = some S[bi] := List.getElem?_eq_getElem (by omega)
    have hnil : S[bi] = [] := by
      have hmod := hwhole _ (List.mem_of_getElem? hb)
      rw [hb, Option.getD_some] at hlen
      exact List.eq_nil_of_length_eq_zero (by omega)
    exact (emptyRunAt_of_nil (hb.trans (congrArg some hnil))).ge
  · exact Nat.zero_le _

/-- From no cursor are more crossings ahead than Cmax (R151). -/
theorem crossingsAhead_le_maxCrossings (S : NamedSound) (bi off : Nat) : crossingsAhead S bi off ≤ maxCrossings S := by
  unfold crossingsAhead
  split
  · rename_i hshort
    have hmany : ¬S.length ≤ 1 := by omega
    have htail : emptyRunAt S (bi + 1) = emptyRunAt S.tail bi := by simp [emptyRunAt]
    rw [maxCrossings, if_neg hmany, htail]
    exact Nat.succ_le_succ (emptyRunAt_le_longestEmptyRun _ _)
  · exact Nat.zero_le _

/-! ### A run between two dispatches -/

/-- A cycle that dispatches is one that fetches, from Loading (R99). -/
theorem CycleOutcome.eq_fetched {l : InputLine} {s t : State} {f : SoundFrame} (h : CycleOutcome l s t)
    (hport : s.port = none) (hf : t.port = some f) :
    s.regs.st = .loading ∧ ∃ w, t = s.fetched w := by
  cases h with
  | @fetched S buf w _ _ hst => exact ⟨hst, w, rfl⟩
  | _ => simp [hport] at hf

/-- A cycle in Loading without reset, CANCEL and dispatch crosses to the next buffer, or ends the run. -/
theorem CycleOutcome.crosses_or_muted {l : InputLine} {s t : State} {S : NamedSound} (h : CycleOutcome l s t)
    (hst : s.regs.st = .loading) (hS : s.sound? = some S) (hr : l.isReset = false) (hc : l.isCancel = false)
    (hnone : t.port = none) :
    (t = s.cross ∧ ∃ buf, S[s.regs.bi]? = some buf ∧ buf.length < s.regs.off + 4 ∧ s.regs.bi + 1 < S.length)
      ∨ Muted t := by
  cases h with
  | reset hr' => simp [hr] at hr'
  | held _ hquiet => exact absurd hst hquiet.1
  | started _ _ hacc => simp [hst, SeqState.acceptsStart] at hacc
  | cancelled _ hc' => simp [hc] at hc'
  | waiting _ hplay | ticked _ hplay => simp [hst] at hplay
  | fetched => simp at hnone
  | terminal | exhausted => exact .inr ⟨by simp, by simp⟩
  | @crossed S' buf _ _ _ hS' hb hlen hn =>
    obtain rfl : S = S' := Option.some.inj (hS.symm.trans hS')
    exact .inl ⟨rfl, buf, hb, hlen, hn⟩

/-- Without reset and a START that is acted on, the sound stays latched (10_state.md R16). -/
theorem CycleOutcome.keeps_sound {l : InputLine} {s t : State} (h : CycleOutcome l s t) (hr : l.isReset = false)
    (hstart : startsRun l s = false) : t.sound? = s.sound? := by
  cases h with
  | reset hr' => simp [hr] at hr'
  | started _ hs ha => simp [startsRun, hr, hs, ha] at hstart
  | _ => rfl

section
variable {ins : Nat → InputLine} {s t : State} {S : NamedSound} {n k : Nat}

/-- From the invariant and an accepted sound every state of a run has the invariant. -/
theorem inv_of_drive (hinv : Inv s) (hacc : LatchedSoundAccepted s) (ht : drive ins k s = .next t) : Inv t := by
  obtain ⟨t', ht', hinv', -⟩ := drive_keeps_inv ins hinv hacc k
  exact Host.Outcome.next.inj (ht'.symm.trans ht) ▸ hinv'

/-- From the invariant and an accepted sound, the cycles of one run have no reset. -/
theorem noReset_of_sameRun (hinv : Inv s) (hacc : LatchedSoundAccepted s) (hrun : SameRun ins s n) (h1 : 1 ≤ k)
    (hk : k < n) : (ins k).isReset = false := by
  obtain ⟨t, ht, -⟩ := drive_keeps_inv ins hinv hacc k
  exact (hrun k t h1 hk ht).1

/-- In Loading and Playing, the buffers of the latched sound hold whole frames (41_frame_sequencer.md R93). -/
theorem wholeFrames_of_latched (hacc : LatchedSoundAccepted s) (hst : s.regs.st = .loading ∨ s.regs.st = .playing)
    (hS : s.sound? = some S) (buf : SoundBuffer) (hbuf : buf ∈ S) : buf.length % 4 = 0 := by
  obtain ⟨S', hS', hres⟩ := hacc hst
  obtain rfl : S = S' := Option.some.inj (hS.symm.trans hS')
  exact length_mod_four_of_accepted hres hbuf

/-- A dispatch is a fetch from Loading. -/
theorem fetched_of_dispatchAt {f : SoundFrame} (hinv : Inv t) (ht : drive ins k s = .next t)
    (h : dispatchAt ins s k = some f) :
    t.regs.st = .loading ∧ ∃ w, drive ins (k + 1) s = .next ((t.driven (ins k)).beginCycle.fetched w) := by
  obtain ⟨u, hu, ho, -⟩ := drive_succ_of_inv ht hinv
  obtain ⟨hst, w, rfl⟩ := ho.eq_fetched rfl ((dispatchAt_of hu).symm.trans h)
  exact ⟨hst, w, hu⟩

/-- A run keeps the sound that is latched after its first cycle. -/
theorem sound_of_sameRun {u : State} (hrun : SameRun ins s n) (hu : drive ins 1 s = .next u) (hk : k + 1 ≤ n)
    (ht : drive ins (k + 1) s = .next t) : t.sound? = u.sound? := by
  induction k generalizing t with
  | zero => rw [Host.Outcome.next.inj (hu.symm.trans ht)]
  | succ k ih =>
    obtain ⟨v, hv, ho⟩ := drive_succ_next ht
    obtain ⟨hr, hstart⟩ := hrun (k + 1) v (by omega) (by omega) hv
    have hkept : v.sound? = u.sound? := ih (by omega) hv
    exact (ho.keeps_sound hr hstart).trans hkept

/-- A run of the sound `S` that has made `c` crossings since it came to Loading looks for its next frame there, and with
those that are ahead makes Cmax crossings at most (R151). -/
structure Crossing (S : NamedSound) (c : Nat) (t : State) : Prop where
  loading : t.regs.st = .loading
  sound : t.sound? = some S
  bound : c + crossingsAhead S t.regs.bi t.regs.off ≤ maxCrossings S

/-- One cycle that dispatches nothing: one crossing more, or the run is over. -/
theorem Crossing.cycle {c : Nat} {l : InputLine} {u : State} (h : Crossing S c t)
    (hwhole : ∀ buf ∈ S, buf.length % 4 = 0) (ho : CycleOutcome l t u) (hr : l.isReset = false)
    (hc : l.isCancel = false) (hnone : u.port = none) : Crossing S (c + 1) u ∨ Muted u := by
  refine (ho.crosses_or_muted h.loading h.sound hr hc hnone).imp_left ?_
  rintro ⟨rfl, buf, hb, hlen, hn⟩
  have hbefore : c + (emptyRunAt S (t.regs.bi + 1) + 1) ≤ maxCrossings S :=
    crossingsAhead_of_exhausted hb hlen hn ▸ h.bound
  have hafter := crossingsAhead_start_le hwhole (t.regs.bi + 1)
  refine ⟨h.loading, h.sound, ?_⟩
  show c + 1 + crossingsAhead S (t.regs.bi + 1) 0 ≤ maxCrossings S
  omega

section
variable {m c : Nat} (hwhole : ∀ buf ∈ S, buf.length % 4 = 0) (hm : 1 ≤ m) (ht : drive ins m s = .next t)
  (hinv : Inv t) (hst : t.regs.st = .loading) (hS : t.sound? = some S)
include hwhole hm ht hinv hst hS

/-- A run in Loading after `m` cycles that dispatches nothing for `c` cycles crosses in each of them, or is over. -/
theorem drive_crossing (hrun : SameRun ins s (m + c))
    (hquiet : ∀ k, m ≤ k → k < m + c → (ins k).isCancel = false ∧ dispatchAt ins s k = none) :
    ∃ u, drive ins (m + c) s = .next u ∧ Inv u ∧ (Crossing S c u ∨ Muted u) := by
  induction c with
  | zero =>
    have hbound : 0 + crossingsAhead S t.regs.bi t.regs.off ≤ maxCrossings S :=
      (Nat.zero_add _).trans_le (crossingsAhead_le_maxCrossings S _ _)
    exact ⟨t, ht, hinv, .inl ⟨hst, hS, hbound⟩⟩
  | succ c ih =>
    obtain ⟨u, hu, hinv', hplace⟩ :=
      ih (fun k v h1 hk => hrun k v h1 (by omega)) fun k h1 hk => hquiet k h1 (by omega)
    obtain ⟨v, hv, ho, hinv''⟩ := drive_succ_of_inv hu hinv'
    obtain ⟨hr, hstart⟩ := hrun (m + c) u (by omega) (by omega) hu
    obtain ⟨hc, hnone⟩ := hquiet (m + c) (by omega) (by omega)
    rw [dispatchAt_of hv] at hnone
    refine ⟨v, hv, hinv'', ?_⟩
    rcases hplace with hcross | hmute
    · have hbegin : Crossing S c (u.driven (ins (m + c))).beginCycle :=
        ⟨hcross.loading, hcross.sound, hcross.bound⟩
      exact hbegin.cycle hwhole ho hr hc hnone
    · exact .inr (ho.muted rfl hstart (.inr hmute)).2

/-- A run in Loading after `m` cycles dispatches its next frame, if any, at most Cmax cycles later. -/
theorem crossings_le_of_dispatchAt {g : SoundFrame} (hrun : SameRun ins s (m + c))
    (hquiet : ∀ k, m ≤ k → k < m + c → (ins k).isCancel = false ∧ dispatchAt ins s k = none)
    (hg : dispatchAt ins s (m + c) = some g) : c ≤ maxCrossings S := by
  obtain ⟨u, hu, hinv', hcross | hmute⟩ := drive_crossing hwhole hm ht hinv hst hS hrun hquiet
  · exact (Nat.le_add_right _ _).trans hcross.bound
  · obtain ⟨hloading, -⟩ := fetched_of_dispatchAt hinv' hu hg
    exact absurd hloading hmute.1

end

/-- The frame after one dispatched in cycle 0 comes when the wait is over: `2^fd` ticks have come since (R114). -/
theorem two_pow_le_ticksFrom_of_dispatchAt {f g : SoundFrame} (hinv : Inv s) (hacc : LatchedSoundAccepted s)
    (hf : dispatchAt ins s 0 = some f) (hg : dispatchAt ins s (n + 1) = some g)
    (hr : ∀ k, 1 ≤ k → k ≤ n → (ins k).isReset = false) : 2 ^ f.fd.toNat ≤ ticksFrom ins 1 n := by
  by_contra hmore
  obtain ⟨t, ht, hplaying, -⟩ := (waitLastsTwoToTheFdTicks ins s f n hinv hf hr).1 (by omega)
  obtain ⟨hloading, -⟩ := fetched_of_dispatchAt (inv_of_drive hinv hacc ht) ht hg
  cases hplaying.symm.trans hloading

/-- With regular ticks and no CANCEL, the wait of a frame dispatched in cycle 0 ends in the first cycle of the `2^fd`-th
tick period after the dispatch's (R114, R151). -/
theorem loading_after_wait {f : SoundFrame} {Q a m : Nat} (hinv : Inv s) (hf : dispatchAt ins s 0 = some f)
    (hticks : TicksEvery Q a ins) (hQ : 0 < Q) (hm : m + a = Q * (a / Q + 2 ^ f.fd.toNat))
    (hr : ∀ k, 1 ≤ k → k ≤ m → (ins k).isReset = false) (hc : ∀ k, 1 ≤ k → k ≤ m → (ins k).isCancel = false) :
    ∃ t, drive ins (m + 1) s = .next t ∧ t.regs.st = .loading := by
  have hcount : ticksFrom ins 1 m = 2 ^ f.fd.toNat := by
    have hperiods := ticksFrom_one_of_ticksEvery hticks m
    rw [hm, Nat.mul_div_cancel_left _ hQ] at hperiods
    omega
  have htick : (ins m).isTick = true := (hticks m).2 (by rw [hm, Nat.mul_mod_right])
  obtain ⟨t, ht, -, -, -, hloading⟩ := (waitLastsTwoToTheFdTicks ins s f m hinv hf hr).2 hcount htick
  exact ⟨t, ht, hloading hc⟩

end

/-- Settles O60: the wait ends in the cycle of its last tick, and each cycle after it and before the next dispatch is a
crossing. -/
theorem cadenceIsExact : Obligations.CadenceIsExact := by
  unfold Obligations.CadenceIsExact
  intro ins s S f g Q a n hinv hacc hS hticks hQ hrun hcancel hf hn hg hnone
  obtain ⟨n, rfl⟩ : ∃ n', n = n' + 1 := ⟨n - 1, by omega⟩
  have hreset (k : Nat) (h1 : 1 ≤ k) (hk : k ≤ n) : (ins k).isReset = false :=
    noReset_of_sameRun hinv hacc hrun h1 (by omega)
  have hover : a / Q + 2 ^ f.fd.toNat ≤ (n + a) / Q := by
    have hlast := two_pow_le_ticksFrom_of_dispatchAt hinv hacc hf hg hreset
    have hperiods := ticksFrom_one_of_ticksEvery hticks n
    omega
  obtain ⟨m, c, rfl, hm⟩ := exists_start_of_period (by omega) (Nat.two_pow_pos _) hover
  obtain ⟨t, ht, hloading⟩ := loading_after_wait hinv hf hticks (by omega) hm
    (fun k h1 hk => hreset k h1 (by omega)) fun k h1 hk => hcancel k h1 (by omega)
  obtain ⟨hst, w, hu⟩ := fetched_of_dispatchAt hinv (rfl : drive ins 0 s = .next s) hf
  have hsound : t.sound? = some S := (sound_of_sameRun hrun hu (by omega) ht).trans hS
  have hc : c ≤ maxCrossings S := by
    rw [Nat.add_right_comm] at hg hnone
    exact crossings_le_of_dispatchAt (wholeFrames_of_latched hacc (.inl hst) hS) (by omega) ht
      (inv_of_drive hinv hacc ht) hloading hsound (fun k u h1 hk => hrun k u h1 (by omega))
      (fun k h1 hk => ⟨hcancel k (by omega) (by omega), hnone k (by omega) hk⟩) hg
  obtain ⟨hperiod, hphase⟩ :
      (m + c + 1 + a) / Q = a / Q + 2 ^ f.fd.toNat ∧ (m + c + 1 + a) % Q = 1 + c :=
    (Nat.div_mod_unique (by omega)).2 ⟨by omega, by omega⟩
  exact ⟨hperiod, by omega, by omega⟩

end Sys2Proof.Machine

/-! ## Instructions: decoding the code of a well-formed one (30_encoding.md R56) -/

namespace Sys2Proof

/-- An encoded frame carries the noise sentinel in its low five bits exactly when its PI is noise. -/
theorem extract_encodeFrame_eq_sentinel_iff (f : SoundFrame) :
    (encodeFrame f).extractLsb' 0 5 = 0b10000#5 ↔ isNoise f = true := by
  rw [← isNoise_decodeWord, decodeWord_encodeFrame]

/-- A FRAME_TERMINAL that is well-formed is read back from its word. -/
theorem decodeFrame_encodeFrame_of_wf_terminal {p : Params} {f : SoundFrame}
    (h : WellFormed p (.frameTerminal f) = true) : decodeFrame p (encodeFrame f) = .frameTerminal f := by
  rw [WellFormed] at h
  rw [decodeFrame_terminal h, decodeWord_encodeFrame]

/-- A FRAME_NOISE that is well-formed is read back from its word: its PI is coded as the sentinel. -/
theorem decodeFrame_encodeFrame_of_wf_noise {p : Params} {f : SoundFrame}
    (h : WellFormed p (.frameNoise f) = true) : decodeFrame p (encodeFrame f) = .frameNoise f := by
  rw [WellFormed, Bool.and_eq_true, Bool.not_eq_true'] at h
  obtain ⟨ht, hnoise⟩ := h
  rw [decodeFrame_noise ht ((extract_encodeFrame_eq_sentinel_iff f).2 hnoise), decodeWord_encodeFrame]

/-- A FRAME_VOICED that is well-formed is read back from its word: no pitch is coded as the sentinel. -/
theorem decodeFrame_encodeFrame_of_wf_voiced {p : Params} {f : SoundFrame}
    (h : WellFormed p (.frameVoiced f) = true) : decodeFrame p (encodeFrame f) = .frameVoiced f := by
  rw [WellFormed, Bool.and_eq_true, Bool.not_eq_true', Bool.not_eq_true'] at h
  obtain ⟨ht, hnoise⟩ := h
  have hpi : (encodeFrame f).extractLsb' 0 5 ≠ 0b10000#5 :=
    mt (extract_encodeFrame_eq_sentinel_iff f).1 (Bool.eq_false_iff.1 hnoise)
  rw [decodeFrame_voiced ht hpi, decodeWord_encodeFrame]

/-- Settles O5: a frame instruction by the class its word is of, and every other one by its own row of the table. -/
theorem decodeEncodeInstr : Obligations.DecodeEncodeInstr := by
  unfold Obligations.DecodeEncodeInstr
  intro p i h
  cases i with
  | frameTerminal f => exact congrArg Except.ok (decodeFrame_encodeFrame_of_wf_terminal h)
  | frameNoise f => exact congrArg Except.ok (decodeFrame_encodeFrame_of_wf_noise h)
  | frameVoiced f => exact congrArg Except.ok (decodeFrame_encodeFrame_of_wf_voiced h)
  | decode | nop | start | cancel | rsvd | tick | reset => rfl
  | loadFetch | loadTerminal | loadCross | loadExhaust | wait => rfl

end Sys2Proof
